-- ==== Sys2Proof/Word.lean ====
section
/-! DEFINITION. The two word types of the ZCRC core. -/

namespace Sys2Proof

/-- A register value: 64 bits, unsigned, bit 0 the least significant (rules R7, R100). -/
abbrev Word := BitVec 64

/-- One data byte (rules R29, R64). -/
abbrev Byte := BitVec 8

end Sys2Proof
end

