-- ==== Sys2Proof/Syntax.lean ====
section
/-! DEFINITION. The commands of the ZCRC core, one constructor per row of the opcode map (rule R84). -/

namespace Sys2Proof

/-- A command. ARG and BYTE are unsigned integers (rule R82), so operands are natural numbers;
`Instr.WellFormed` says which of them a word can carry (log entry 11). -/
inductive Instr where
  /-- NOP (R151). -/
  | nop
  /-- CONFIG (R152). -/
  | config
  /-- INIT (R155). -/
  | init
  /-- ZERO (R157). -/
  | zero
  /-- PROCESS len (R160), len in ARG. -/
  | process (len : Nat)
  /-- FINALIZE (R165). -/
  | finalize
  /-- ISVALID (R170). -/
  | isvalid
  /-- COMBINE (R180). -/
  | combine
  /-- ZEXT (R184). -/
  | zext
  /-- CLMUL (R188). -/
  | clmul
  /-- REFLECT b (R192), b in ARG. -/
  | reflect (b : Nat)
  /-- LUTRD s, b (R200), s in ARG, b in BYTE. -/
  | lutrd (s b : Nat)
  /-- FOLDRD k (R204), k in ARG. -/
  | foldrd (k : Nat)
  /-- RESRD (R208). -/
  | resrd
  deriving DecidableEq, Repr

end Sys2Proof
end

