-- ==== Sys2Proof/WellFormed.lean ====
section
/-! DEFINITION. Which commands a 64-bit word can carry (rules R81, R82). -/

namespace Sys2Proof

/-- ARG has seven bits, 0 to 127 (R82). -/
def fitsArg (n : Nat) : Bool := decide (n < 128)

/-- BYTE has eight bits, 0 to 255 (R82). -/
def fitsByte (n : Nat) : Bool := decide (n < 256)

/-- A command is well formed when each operand fits its field.
An operand outside its LEGAL range (R88) is well formed: such a word is decoded, and the command raises ERR_ARG. -/
def Instr.wellFormed : Instr → Bool
  | .nop => true
  | .config => true
  | .init => true
  | .zero => true
  | .process len => fitsArg len
  | .finalize => true
  | .isvalid => true
  | .combine => true
  | .zext => true
  | .clmul => true
  | .reflect b => fitsArg b
  | .lutrd s b => fitsArg s && fitsByte b
  | .foldrd k => fitsArg k
  | .resrd => true

/-- `Instr.wellFormed` as a proposition. -/
abbrev Instr.WellFormed (i : Instr) : Prop := i.wellFormed = true

end Sys2Proof
end

