-- ==== Sys2Proof/Decode.lean ====
section
/-! DEFINITION. Decoding of command words (rules R80 to R87), and the encoder (rule R89). -/

namespace Sys2Proof

/-- OPC, bits 7:0 of a command word (R81). -/
def opcField (c : Word) : Nat := (c.extractLsb' 0 8).toNat

/-- ARG, bits 14:8 (R81, R82). -/
def argField (c : Word) : Nat := (c.extractLsb' 8 7).toNat

/-- BYTE, bits 23:16 (R81, R82). -/
def byteField (c : Word) : Nat := (c.extractLsb' 16 8).toNat

/-- One row of the opcode map: the columns OPC, match, mask, and the command built from the fields ARG and BYTE. -/
structure OpcodeRow where
  opc : Nat
  matchBits : Word
  mask : Word
  form : Nat → Nat → Instr

/-- The opcode map of rule R84, in the order of its opcodes. -/
def opcodeMap : List OpcodeRow :=
  [ ⟨0x00, 0x0000000000000000, 0xFFFFFFFFFFFFFFFF, fun _ _ => .nop⟩,
    ⟨0x01, 0x0000000000000001, 0xFFFFFFFFFFFFFFFF, fun _ _ => .config⟩,
    ⟨0x02, 0x0000000000000002, 0xFFFFFFFFFFFFFFFF, fun _ _ => .init⟩,
    ⟨0x03, 0x0000000000000003, 0xFFFFFFFFFFFFFFFF, fun _ _ => .zero⟩,
    ⟨0x04, 0x0000000000000004, 0xFFFFFFFFFFFF80FF, fun arg _ => .process arg⟩,
    ⟨0x05, 0x0000000000000005, 0xFFFFFFFFFFFFFFFF, fun _ _ => .finalize⟩,
    ⟨0x06, 0x0000000000000006, 0xFFFFFFFFFFFFFFFF, fun _ _ => .isvalid⟩,
    ⟨0x07, 0x0000000000000007, 0xFFFFFFFFFFFFFFFF, fun _ _ => .combine⟩,
    ⟨0x08, 0x0000000000000008, 0xFFFFFFFFFFFFFFFF, fun _ _ => .zext⟩,
    ⟨0x09, 0x0000000000000009, 0xFFFFFFFFFFFFFFFF, fun _ _ => .clmul⟩,
    ⟨0x0A, 0x000000000000000A, 0xFFFFFFFFFFFF80FF, fun arg _ => .reflect arg⟩,
    ⟨0x0B, 0x000000000000000B, 0xFFFFFFFFFF0080FF, fun arg byte => .lutrd arg byte⟩,
    ⟨0x0C, 0x000000000000000C, 0xFFFFFFFFFFFF80FF, fun arg _ => .foldrd arg⟩,
    ⟨0x0D, 0x000000000000000D, 0xFFFFFFFFFFFFFFFF, fun _ _ => .resrd⟩ ]

/-- Why a word is illegal.
Either reason raises ERR_CMD (R220). -/
inductive DecodeError where
  /-- The opcode is 0x0E to 0xFF (R86). -/
  | reservedOpcode
  /-- A bit outside the row's mask is 1 (R83). -/
  | reservedBitSet
  deriving DecidableEq, Repr

/-- The first two checks of rule R85: the opcode's row, then the bits outside its mask. -/
def decode (c : Word) : Except DecodeError Instr :=
  match opcodeMap[opcField c]? with
  | none => .error .reservedOpcode
  | some row =>
    if c &&& row.mask = row.matchBits then .ok (row.form (argField c) (byteField c))
    else .error .reservedBitSet

/-- The opcode, OPC (R84). -/
def Instr.opcode : Instr → Nat
  | .nop => 0x00
  | .config => 0x01
  | .init => 0x02
  | .zero => 0x03
  | .process _ => 0x04
  | .finalize => 0x05
  | .isvalid => 0x06
  | .combine => 0x07
  | .zext => 0x08
  | .clmul => 0x09
  | .reflect _ => 0x0A
  | .lutrd _ _ => 0x0B
  | .foldrd _ => 0x0C
  | .resrd => 0x0D

/-- The value of the ARG field, 0 where the command does not use it (R83, R84). -/
def Instr.arg : Instr → Nat
  | .nop => 0
  | .config => 0
  | .init => 0
  | .zero => 0
  | .process len => len
  | .finalize => 0
  | .isvalid => 0
  | .combine => 0
  | .zext => 0
  | .clmul => 0
  | .reflect b => b
  | .lutrd s _ => s
  | .foldrd k => k
  | .resrd => 0

/-- The value of the BYTE field, 0 where the command does not use it (R83, R84). -/
def Instr.byte : Instr → Nat
  | .nop => 0
  | .config => 0
  | .init => 0
  | .zero => 0
  | .process _ => 0
  | .finalize => 0
  | .isvalid => 0
  | .combine => 0
  | .zext => 0
  | .clmul => 0
  | .reflect _ => 0
  | .lutrd _ b => b
  | .foldrd _ => 0
  | .resrd => 0

/-- The assembled word OPC | (ARG << 8) | (BYTE << 16) of rule R89. -/
def encode (i : Instr) : Word :=
  BitVec.ofNat 64 i.opcode ||| BitVec.ofNat 64 i.arg <<< 8 ||| BitVec.ofNat 64 i.byte <<< 16

/-- The command read from an instruction of `nbits` bits with value `w`, every bit above `nbits` 0.
A command word has 64 bits, so a value that needs more is no command word. -/
def decodeTableWord (nbits w : Nat) : Option Instr :=
  if w % 2 ^ nbits < 2 ^ 64 then (decode (BitVec.ofNat 64 (w % 2 ^ nbits))).toOption else none

end Sys2Proof
end

