-- ==== Sys2Proof/Config.lean ====
section
/-! DEFINITION. What an implementation fixes (rule R5), and the one free value of the spec (rule R48). -/

namespace Sys2Proof

/-- The implementation parameters of rule R5 that have a value in the model.
No command changes them.
They are plain data that State carries, so a statement about every state is about every N_SLICE and
every BASE_ADDR (log entries 1 and 2: DESIGN CHOICE).
LAT, the third parameter of R5, is no number here: it is where the core's turn stands in the schedule (log entry 3). -/
structure Params where
  /-- N_SLICE, the slice count of the kernel; 1 ≤ N_SLICE ≤ 128. -/
  nSlice : Nat
  /-- BASE_ADDR, the bus address of register offset 0x00 (rule R69). -/
  baseAddr : Nat
  deriving DecidableEq, Repr

/-- The bounds rule R5 sets on N_SLICE. -/
abbrev Params.Legal (p : Params) : Prop := 1 ≤ p.nSlice ∧ p.nSlice ≤ 128

/-- The parameters of the reset state: the reference value N_SLICE = 8 of rule R5 and base address 0
(log entries 1 and 2: DESIGN CHOICE). -/
def Config.referenceParams : Params where
  nSlice := 8
  baseAddr := 0

/-- CAP.MAXW, the largest legal width (rule R36). -/
def Config.maxWidth : Nat := 64

/-- CAP.VERSION, the command-set version ZCRC-CMD 1 (rule R36). -/
def Config.version : Nat := 1

/-- The value a host reads from STATE or RESULT while BUSY = 1: any value, a fresh draw for each read, under
no law (rule R48; 93_implementation_defined.md).
The argument numbers the draw (log entry 5). -/
opaque Config.busyReadValue : Nat → Word

end Sys2Proof
end

