-- ==== Sys2Proof/Machine/State.lean ====
section
/-! DEFINITION. The state of the ZCRC core (10_state.md), the events that reach it (rule R11), and its reset value (rule R47). -/

namespace Sys2Proof.Machine

/-- The active configuration, a record (W, P, I, X, RIN, ROUT) (rule R40). -/
structure Active where
  w : Nat
  p : Word
  i : Word
  x : Word
  rin : Bool
  rout : Bool
  deriving DecidableEq, Repr

/-- The bounds of rule R40: 1 ≤ W ≤ 64 and P, I, X below 2^W. -/
abbrev Active.Legal (a : Active) : Prop :=
  1 ≤ a.w ∧ a.w ≤ 64 ∧ a.p.toNat < 2 ^ a.w ∧ a.i.toNat < 2 ^ a.w ∧ a.x.toNat < 2 ^ a.w

/-- The five errors of 60_exceptions.md section 1 that have a bit in STATUS. -/
inductive ErrorCode where
  /-- ERR_CMD, code 8: the word is illegal (R220). -/
  | cmd
  /-- ERR_NOCFG, code 9: the command needs ACTIVE and there is none (R221). -/
  | noCfg
  /-- ERR_ARG, code 10: an argument field is out of range (R222). -/
  | arg
  /-- ERR_PARAM, code 11: CONFIG found an illegal parametrisation (R223). -/
  | param
  /-- ERR_BUSY, code 12: a host write reached an operand register while a command was pending (R224). -/
  | busy
  deriving DecidableEq, Repr

/-- The sticky error bits, bits 12:8 of STATUS (R32). -/
structure ErrorBits where
  cmd : Bool
  noCfg : Bool
  arg : Bool
  param : Bool
  busy : Bool
  deriving DecidableEq, Repr

/-- The atomic events of rules R11 and R228, in the words of the host's bus (R60) and of reset (R250). -/
inductive Event where
  /-- The host reads `size` bytes at bus address `addr`. -/
  | read (size addr : Nat)
  /-- The host writes the `size` bytes `v` at bus address `addr`. -/
  | write (size addr : Nat) (v : Word)
  /-- An external reset. -/
  | reset
  /-- The core's turn: it performs the pending command, if there is one. -/
  | core
  deriving DecidableEq, Repr

/-- What the bus answered to the host's last access (R62, R78).
It is on the host's side of the bus, and nothing in the core reads it (log entry 6). -/
inductive Response where
  /-- No access has been made yet. -/
  | none
  /-- A defined read returned this value. -/
  | data (v : Word)
  /-- A defined write completed, whether it stored, was ignored or was dropped (log entry 12). -/
  | done
  /-- The access was undefined (R62). -/
  | busError
  deriving DecidableEq, Repr

/-- The whole state.
STATUS.BUSY and STATUS.CONFIGURED are computed from `pending` and `active` (rules R33, R34; log entry 7); the tables,
folding powers and residue are computed from `active` (rule R42; log entry 8); CAP is computed from `params` (rule R36).
The last three fields are the model's own. -/
structure State where
  /-- N_SLICE and BASE_ADDR (R5). -/
  params : Params
  /-- CFG, offset 0x00 (R21, R22). -/
  cfg : Word
  /-- POLY, offset 0x08 (R23). -/
  poly : Word
  /-- INIT, offset 0x10 (R23). -/
  initReg : Word
  /-- XOROUT, offset 0x18 (R23). -/
  xorout : Word
  /-- STATE, offset 0x20: the running CRC register (R25). -/
  crcState : Word
  /-- OPA, offset 0x28 (R27). -/
  opa : Word
  /-- OPB, offset 0x30 (R28). -/
  opb : Word
  /-- DATA, offset 0x38 (R29). -/
  data : Word
  /-- COUNT, offset 0x40 (R30). -/
  count : Word
  /-- RESULT, offset 0x48 (R31). -/
  result : Word
  /-- STATUS.VALID (R35). -/
  valid : Bool
  /-- STATUS bits 12:8 (R32). -/
  errors : ErrorBits
  /-- ACTIVE (R40). -/
  active : Option Active
  /-- PENDING (R41). -/
  pending : Option Word
  /-- The events still to come, the next one first (log entry 3: DESIGN CHOICE). -/
  schedule : List Event
  /-- The bus's last answer (log entry 6: DESIGN CHOICE). -/
  response : Response
  /-- The number of free values drawn so far (log entry 5: DESIGN CHOICE). -/
  draws : Nat
  deriving DecidableEq, Repr

/-- Reasons to stop with a fault: there are none.
Rule R13: every command completes or ends with a named error, and every access completes or returns a bus error. -/
inductive Fault where
  deriving DecidableEq, Repr

/-- Reasons to refuse an instruction. -/
inductive Refusal where
  /-- Raised by an arm of `exec` that has no meaning yet; safe. No arm raises it now. -/
  | notModelled (mnemonic : String)
  deriving DecidableEq, Repr

/-- No error bit set. -/
def ErrorBits.none : ErrorBits where
  cmd := false
  noCfg := false
  arg := false
  param := false
  busy := false

/-- The reset state of a core with the implementation parameters `p` (rule R47): every register 0, STATUS 0,
ACTIVE undefined, PENDING empty; the model's own fields empty (log entries 3, 5, 6: DESIGN CHOICE). -/
def State.resetOf (p : Params) : State where
  params := p
  cfg := 0
  poly := 0
  initReg := 0
  xorout := 0
  crcState := 0
  opa := 0
  opb := 0
  data := 0
  count := 0
  result := 0
  valid := false
  errors := ErrorBits.none
  active := Option.none
  pending := Option.none
  schedule := []
  response := Response.none
  draws := 0

/-- The machine right after reset, with the reference parameters (log entries 1 and 2: DESIGN CHOICE). -/
def State.reset : State := State.resetOf Config.referenceParams

end Sys2Proof.Machine
end

