-- ==== Sys2Proof/Machine/Operands.lean ====
section
/-! DEFINITION. Bit primitives (40_primitives.md section 1), register fields and operand bytes. -/

namespace Sys2Proof.Machine

/-- The bottom-n mask 2^n − 1 (R101). -/
def mask (n : Nat) : Word := BitVec.ofNat 64 (2 ^ n - 1)

/-- The generalised left shift of rule R102: 0 for a count of 64 or more, the other way for a negative count. -/
def gshl (v : Word) (s : Int) : Word :=
  if s < 0 then (if 64 ≤ -s then 0 else v >>> (-s).toNat)
  else if 64 ≤ s then 0 else v <<< s.toNat

/-- The generalised right shift of rule R102. -/
def gshr (v : Word) (s : Int) : Word := gshl v (-s)

/-- Reversal of the bottom `b` bits of a number; higher bits are ignored and come out 0 (R103).
Bit 0 of `v` becomes bit `b − 1` of the result. -/
def reflectNat : Nat → Nat → Nat
  | _, 0 => 0
  | v, b + 1 => (v % 2) <<< b ||| reflectNat (v >>> 1) b

/-- reflect(v, b) on a register value (R103). -/
def reflect (v : Word) (b : Nat) : Word := BitVec.ofNat 64 (reflectNat v.toNat b)

/-- Byte lane k of a register value, bits 8k+7 to 8k (R64). -/
def byteLane (v : Word) (k : Nat) : Byte := v.extractLsb' (8 * k) 8

/-- The first `len` bytes of DATA, byte 0 first (R29, R65). -/
def dataBytes (data : Word) (len : Nat) : List Byte := (List.range len).map (byteLane data)

/-- The register value that holds the bytes, byte 0 in lane 0 (R65, and the sum Σ bj·2^(8j) of R91). -/
def packBytes : List Byte → Word
  | [] => 0
  | d :: ds => d.setWidth 64 ||| packBytes ds <<< 8

/-- The bits a write to CFG stores (R22). -/
def cfgWritable : Word := 0x37F

/-- CFG.WIDTH, bits 6:0 (R21). -/
def cfgWidth (cfg : Word) : Nat := (cfg.extractLsb' 0 7).toNat

/-- CFG.RIN, bit 8 (R21). -/
def cfgRin (cfg : Word) : Bool := cfg.getLsbD 8

/-- CFG.ROUT, bit 9 (R21). -/
def cfgRout (cfg : Word) : Bool := cfg.getLsbD 9

end Sys2Proof.Machine
end

