-- ==== Sys2Proof/Machine/Poly.lean ====
section
/-! DEFINITION. Polynomial arithmetic over GF(2) (40_primitives.md section 2).
A polynomial is a natural number whose bit i is the coefficient of x^i (rule R9), so nothing is truncated (rule R106). -/

namespace Sys2Proof.Machine

/-- The sum, over the i below `n` with b[i] = 1, of a · 2^i. -/
def clmulUpTo (a b : Nat) : Nat → Nat
  | 0 => 0
  | n + 1 => clmulUpTo a b n ^^^ (if b.testBit n then a <<< n else 0)

/-- The carry-less product (R106). -/
def clmul (a b : Nat) : Nat := clmulUpTo a b (b.log2 + 1)

/-- The product with x^e: bit i becomes bit i + e (R9). -/
def mulX (a e : Nat) : Nat := a <<< e

/-- The generator G = x^W + P (R9). -/
def gen (a : Active) : Nat := 2 ^ a.w ^^^ a.p.toNat

/-- Long division by a polynomial `g` of degree `w`, keeping the remainder: the leading terms x^(w+n−1) down to x^w
are cancelled in turn. -/
def reduceFrom (g w : Nat) : Nat → Nat → Nat
  | 0, v => v
  | n + 1, v => reduceFrom g w n (if v.testBit (w + n) then v ^^^ (g <<< n) else v)

/-- v mod G (R107): the remainder, of degree below W. -/
def modG (a : Active) (v : Nat) : Nat := reduceFrom (gen a) a.w (v.log2 + 1 - a.w) v

/-- mulmod(u, v) = clmul(u, v) mod G (R107). -/
def mulmod (a : Active) (u v : Nat) : Nat := modG a (clmul u v)

/-- xpow(e) = x^e mod G (R107). -/
def xpow (a : Active) (e : Nat) : Nat := modG a (mulX 1 e)

/-- The loop of the bit-serial product of rule R108, for the bits of `u` below `n`, the highest first. -/
def mulSerialFrom (a : Active) (u v : Nat) : Nat → Nat → Nat
  | 0, r => r
  | n + 1, r =>
    let evicted := r.testBit (a.w - 1)
    let shifted := (r <<< 1) % 2 ^ a.w
    let reduced := if evicted then shifted ^^^ a.p.toNat else shifted
    mulSerialFrom a u v n (if u.testBit n then reduced ^^^ v else reduced)

/-- The bit-serial form of mulmod (R108): the method the document gives for the multiplier. -/
def mulSerial (a : Active) (u v : Nat) : Nat := mulSerialFrom a u v a.w 0

/-- The same loop on reflected values, with right shifts, scanning `u` from bit 0 upward (R108): `n` turns are left. -/
def mulSerialReflectedFrom (a : Active) (u v : Nat) : Nat → Nat → Nat
  | 0, r => r
  | n + 1, r =>
    let evicted := r.testBit 0
    let shifted := r >>> 1
    let reduced := if evicted then shifted ^^^ reflectNat a.p.toNat a.w else shifted
    mulSerialReflectedFrom a u v n (if u.testBit (a.w - 1 - n) then reduced ^^^ v else reduced)

/-- The bit-serial product in the reflected orientation (R108). -/
def mulSerialReflected (a : Active) (u v : Nat) : Nat := mulSerialReflectedFrom a u v a.w 0

/-- One bit `m` through the shift register of the Rocksoft model (R115). -/
def bitStep (a : Active) (v : Nat) (m : Bool) : Nat :=
  let shifted := (v <<< 1) % 2 ^ a.w
  if v.testBit (a.w - 1) != m then shifted ^^^ a.p.toNat else shifted

end Sys2Proof.Machine
end

