-- ==== Sys2Proof/Machine/Crc.lean ====
section
/-! DEFINITION. The functional units of 40_primitives.md sections 3 to 8: state representation, byte update, tables and kernel,
folding powers, combination, residue.
A canonical value is a natural number below 2^W; a register form is a Word (rules R100, R111). -/

namespace Sys2Proof.Machine

/-- The shift amount SH (R110). -/
def shiftAmount (a : Active) : Nat := if a.rin then 0 else 8 - a.w

/-- enc(v): the register form of a canonical value (R111). -/
def enc (a : Active) (v : Nat) : Word :=
  if a.rin then BitVec.ofNat 64 (reflectNat v a.w) else BitVec.ofNat 64 (v <<< shiftAmount a)

/-- SIG, the mask of the significant field (R112). -/
def sigMask (a : Active) : Word := if a.rin then mask a.w else mask a.w <<< shiftAmount a

/-- sig(r), the significant field of a register value (R112). -/
def sig (a : Active) (r : Word) : Word := r &&& sigMask a

/-- dec(r): the canonical value of a register form (R111). -/
def dec (a : Active) (r : Word) : Nat :=
  if a.rin then reflectNat (r &&& mask a.w).toNat a.w else ((r >>> shiftAmount a) &&& mask a.w).toNat

/-- β(d), the input byte polynomial (R114). -/
def beta (a : Active) (d : Byte) : Nat := if a.rin then reflectNat d.toNat 8 else d.toNat

/-- step(v, d) = (v·x^8 + β(d)·x^W) mod G, the one-byte update (R115). -/
def byteStep (a : Active) (v : Nat) (d : Byte) : Nat := modG a (mulX v 8 ^^^ mulX (beta a d) a.w)

/-- The bits of a byte in the order in which the shift register takes them: the coefficient of x^7 of β(d) first (R114, R115). -/
def inputBits (a : Active) (d : Byte) : List Bool := (List.range 8).map fun j => (beta a d).testBit (7 - j)

/-- The one-byte update bit by bit (R115). -/
def byteStepSerial (a : Active) (v : Nat) (d : Byte) : Nat := (inputBits a d).foldl (bitStep a) v

/-- PROC(r, bytes), the update by a byte string (R116). -/
def proc (a : Active) (r : Word) (ds : List Byte) : Word := enc a (ds.foldl (byteStep a) (dec a r))

/-- INITVAL (R117). -/
def initVal (a : Active) : Word := enc a a.i.toNat

/-- FIN(r), the checksum of a state (R118). -/
def fin (a : Active) (r : Word) : Word :=
  BitVec.ofNat 64 ((if a.rout then reflectNat (dec a r) a.w else dec a r) ^^^ a.x.toNat)

/-- TABLE[s][b] for a core with N slices (R121; the exponent is the one 90_conflicts.md C1 and C2 settle on). -/
def tableEntry (a : Active) (n s : Nat) (b : Byte) : Word :=
  enc a (modG a (mulX (beta a b) (8 * (n - 1 - s) + a.w)))

/-- WI = max(W, 8) (R122). -/
def indexWidth (a : Active) : Nat := max a.w 8

/-- The register byte that meets input byte i of a group (R122 for RIN = 0, R123 for RIN = 1). -/
def groupIndexByte (a : Active) (r : Word) (i : Nat) : Byte :=
  if a.rin then (gshr r (8 * i)).setWidth 8 else (gshr r ((indexWidth a : Int) - 8 * (i + 1))).setWidth 8

/-- The accumulation of a group of `m` bytes, from byte i on: the XOR of TABLE[N − m + i][b_i] (R122, R123). -/
def groupAcc (a : Active) (n m : Nat) (r : Word) : Nat → List Byte → Word → Word
  | _, [], acc => acc
  | i, d :: ds, acc =>
    groupAcc a n m r (i + 1) ds (acc ^^^ tableEntry a n (n - m + i) (d ^^^ groupIndexByte a r i))

/-- The part of the register that a group of `m` bytes does not consume: gshl(r, 8m) & SIG (R122) or gshr(r, 8m) (R123). -/
def groupRest (a : Active) (r : Word) (m : Nat) : Word :=
  if a.rin then gshr r (8 * m) else gshl r (8 * m) &&& sigMask a

/-- One group step, GROUP0 for RIN = 0 (R122) and GROUP1 for RIN = 1 (R123). -/
def groupStep (a : Active) (n : Nat) (r : Word) (ds : List Byte) : Word :=
  groupAcc a n ds.length r 0 ds 0 ^^^ groupRest a r ds.length

/-- `q` full groups of N bytes (R124): the register after them and the bytes that remain. -/
def kernelFull (a : Active) (n : Nat) : Nat → Word → List Byte → Word × List Byte
  | 0, r, ds => (r, ds)
  | q + 1, r, ds => kernelFull a n q (groupStep a n r (ds.take n)) (ds.drop n)

/-- The tail (R124): a block of 2^k bytes for each set bit k of the tail length t, from the bit below `k` down to 0. -/
def kernelTail (a : Active) (n t : Nat) : Nat → Word → List Byte → Word
  | 0, r, _ => r
  | k + 1, r, ds =>
    if t.testBit k then kernelTail a n t k (groupStep a n r (ds.take (2 ^ k))) (ds.drop (2 ^ k))
    else kernelTail a n t k r ds

/-- KERNEL(r, bytes), the slice-by-N schedule (R124). -/
def kernel (a : Active) (n : Nat) (r : Word) (ds : List Byte) : Word :=
  let full := kernelFull a n (ds.length / n) (sig a r) ds
  kernelTail a n (ds.length % n) ((n - 1).log2 + 1) full.1 full.2

/-- The canonical value of FOLD[k]: x^8 mod G, squared k times (R204's recurrence, which is R130's x^(8·2^k) mod G; log entry 8). -/
def foldPower (a : Active) : Nat → Nat
  | 0 => xpow a 8
  | k + 1 => mulmod a (foldPower a k) (foldPower a k)

/-- FOLD[k] (R130). -/
def foldEntry (a : Active) (k : Nat) : Word := enc a (foldPower a k)

/-- One turn of the loop of rule R132. -/
def zxStep (a : Active) (n : Word) (q : Word) (k : Nat) : Word :=
  if n.getLsbD k then enc a (mulmod a (dec a q) (dec a (foldEntry a k))) else q

/-- ZX(r, n), the extension by n zero bytes (R132). -/
def zx (a : Active) (r n : Word) : Word := (List.range 64).foldl (zxStep a n) (sig a r)

/-- COMB(r, q) (R134). -/
def comb (a : Active) (r q : Word) : Word := sig a r ^^^ sig a q

/-- The final-XOR mask in the output orientation, ρX (R135; 90_conflicts.md C6). -/
def orientedXor (a : Active) : Nat := if a.rout then reflectNat a.x.toNat a.w else a.x.toNat

/-- RESIDUE (R135). -/
def residue (a : Active) : Word := enc a (mulmod a (orientedXor a) (xpow a a.w))

/-- The residue as W zero bits through the shift register, starting from ρX (R135). -/
def residueSerial (a : Active) : Word := enc a ((List.replicate a.w false).foldl (bitStep a) (orientedXor a))

/-- VALIDP(r) (R136). -/
def validp (a : Active) (r : Word) : Bool := decide (sig a r = residue a)

/-- ser(C): a checksum as ⌈W/8⌉ bytes, most significant byte first after left alignment when RIN = 0, least significant
byte first when RIN = 1 (R137). -/
def serialize (a : Active) (c : Word) : List Byte :=
  let nb := (a.w + 7) / 8
  if a.rin then dataBytes c nb else (dataBytes (c <<< (8 * nb - a.w)) nb).reverse

/-- A byte string with bit `j` of byte `i` changed (R138). -/
def flipBit (ds : List Byte) (i j : Nat) : List Byte := ds.modify i fun d => d ^^^ (1#8 <<< j)

/-- The shifted per-span results of a chunked computation that starts from `r`: each span's PROC, the first from `r` and the
others from 0, extended by the number of bytes after the span (R181). -/
def shiftedSpans (a : Active) : Word → List (List Byte) → List Word
  | _, [] => []
  | r, span :: later => zx a (proc a r span) (BitVec.ofNat 64 later.flatten.length) :: shiftedSpans a 0 later

end Sys2Proof.Machine
end

