-- ==== Sys2Proof/Machine/Flags.lean ====
section
/-! DEFINITION. STATUS and its flags (10_state.md rules R32 to R35, R38). -/

namespace Sys2Proof.Machine

/-- STATUS.BUSY: PENDING holds a command (R33). -/
def State.busy (s : State) : Bool := s.pending.isSome

/-- STATUS.CONFIGURED: ACTIVE is defined (R34). -/
def State.configured (s : State) : Bool := s.active.isSome

/-- The code of an error is the index of its STATUS bit (60_exceptions.md section 1). -/
def ErrorCode.bit : ErrorCode → Nat
  | .cmd => 8
  | .noCfg => 9
  | .arg => 10
  | .param => 11
  | .busy => 12

/-- The value of one error bit. -/
def ErrorBits.get (e : ErrorBits) : ErrorCode → Bool
  | .cmd => e.cmd
  | .noCfg => e.noCfg
  | .arg => e.arg
  | .param => e.param
  | .busy => e.busy

/-- Raising an error sets its bit to 1, whether or not it was already 1 (R229). -/
def ErrorBits.set (e : ErrorBits) : ErrorCode → ErrorBits
  | .cmd => { e with cmd := true }
  | .noCfg => { e with noCfg := true }
  | .arg => { e with arg := true }
  | .param => { e with param := true }
  | .busy => { e with busy := true }

/-- A write of `v` to STATUS clears each error bit whose bit of `v` is 1 (R38). -/
def ErrorBits.clear (e : ErrorBits) (v : Word) : ErrorBits where
  cmd := e.cmd && !v.getLsbD 8
  noCfg := e.noCfg && !v.getLsbD 9
  arg := e.arg && !v.getLsbD 10
  param := e.param && !v.getLsbD 11
  busy := e.busy && !v.getLsbD 12

/-- A one-bit field at position `k`. -/
def flagAt (b : Bool) (k : Nat) : Word := if b then 1#64 <<< k else 0

/-- The STATUS word of rule R32; its reserved bits are 0. -/
def State.statusWord (s : State) : Word :=
  flagAt s.busy 0 ||| flagAt s.configured 1 ||| flagAt s.valid 2 |||
    flagAt s.errors.cmd 8 ||| flagAt s.errors.noCfg 9 ||| flagAt s.errors.arg 10 |||
    flagAt s.errors.param 11 ||| flagAt s.errors.busy 12

end Sys2Proof.Machine
end

