-- ==== Sys2Proof/Machine/Ops.lean ====
section
/-! DEFINITION. The shared operations: how a command ends, the checks every command shares, register access by the host,
and reset. -/

namespace Sys2Proof.Machine

/-- The result of a command: a next state, a fault or a refusal. -/
abbrev Result := Host.Outcome State Fault Refusal

/-- The end of every command step: PENDING is emptied, and so BUSY cleared (R150). -/
def State.retire (s : State) : State := { s with pending := none }

/-- A command that has done its work ends (R150). -/
def complete (s : State) : Result := .next s.retire

/-- TAKING AN EXCEPTION on this hardware: the command raises an error, which sets its sticky bit, empties PENDING and
changes nothing else (R226).
There is no trap entry: nothing is saved and no control is transferred (R231). -/
def raiseError (e : ErrorCode) (s : State) : Result := .next { s.retire with errors := s.errors.set e }

/-- THE RETURN FROM AN ERROR: the host's write of `v` to STATUS clears the error bits it names (R38, R232). -/
def State.clearErrors (s : State) (v : Word) : State := { s with errors := s.errors.clear v }

/-- The configuration check of rule R85: ERR_NOCFG while ACTIVE is undefined (R221). -/
def withActive (s : State) (k : Active → Result) : Result :=
  match s.active with
  | none => raiseError .noCfg s
  | some a => k a

/-- The argument check of rule R85: ERR_ARG when the argument is out of range (R222). -/
def checkArg (inRange : Bool) (s : State) (k : Result) : Result := if inRange then k else raiseError .arg s

/-- A command's write to STATE (R26). -/
def State.setCrc (s : State) (v : Word) : State := { s with crcState := v }

/-- A command's write to RESULT (R31). -/
def State.setResult (s : State) (v : Word) : State := { s with result := v }

/-- The staged parametrisation is legal: the two tests of CONFIG (R152, R223). -/
def stagedLegal (s : State) : Bool :=
  decide (1 ≤ cfgWidth s.cfg) && decide (cfgWidth s.cfg ≤ 64) &&
    decide ((s.poly ||| s.initReg ||| s.xorout) &&& ~~~mask (cfgWidth s.cfg) = 0)

/-- The configuration that CONFIG takes from the staging registers (R152). -/
def stagedActive (s : State) : Active where
  w := cfgWidth s.cfg
  p := s.poly
  i := s.initReg
  x := s.xorout
  rin := cfgRin s.cfg
  rout := cfgRout s.cfg

/-- The thirteen registers of the window (R20). -/
inductive Reg where
  | cfg | poly | init | xorout | state | opa | opb | data | count | result | status | cmd | cap
  deriving DecidableEq, Repr

/-- The offset of a register (R20). -/
def Reg.offset : Reg → Nat
  | .cfg => 0x00
  | .poly => 0x08
  | .init => 0x10
  | .xorout => 0x18
  | .state => 0x20
  | .opa => 0x28
  | .opb => 0x30
  | .data => 0x38
  | .count => 0x40
  | .result => 0x48
  | .status => 0x50
  | .cmd => 0x58
  | .cap => 0x60

/-- All registers, in the order of their offsets. -/
def allRegs : List Reg :=
  [.cfg, .poly, .init, .xorout, .state, .opa, .opb, .data, .count, .result, .status, .cmd, .cap]

/-- The register at an offset; none at a reserved offset (R20, R39). -/
def regAt (off : Nat) : Option Reg := allRegs.find? fun r => r.offset == off

/-- The offset of a DEFINED access: 8 bytes wide, at a multiple of 8 from 0x00 to 0xF8 of the window at BASE_ADDR (R60, R61).
Any other access has none, and so gets a bus error (R62, and D2 of 92_eei_decisions.md for the rest; log entry 2). -/
def definedOffset (base size addr : Nat) : Option Nat :=
  if size = 8 ∧ base ≤ addr ∧ addr - base ≤ 0xF8 ∧ (addr - base) % 8 = 0 then some (addr - base) else none

/-- CAP (R36). -/
def State.capWord (s : State) : Word :=
  BitVec.ofNat 64 (s.params.nSlice % 256) ||| BitVec.ofNat 64 Config.maxWidth <<< 8 ||| BitVec.ofNat 64 Config.version <<< 16

/-- The current value of a register as the host reads it: CMD reads 0 (R37). -/
def State.readReg (s : State) : Reg → Word
  | .cfg => s.cfg
  | .poly => s.poly
  | .init => s.initReg
  | .xorout => s.xorout
  | .state => s.crcState
  | .opa => s.opa
  | .opb => s.opb
  | .data => s.data
  | .count => s.count
  | .result => s.result
  | .status => s.statusWord
  | .cmd => 0
  | .cap => s.capWord

/-- The registers whose value is open while BUSY = 1 (R48). -/
def Reg.openWhileBusy (r : Reg) : Bool := r == .state || r == .result

/-- The bus's answer to an access. -/
def State.respond (s : State) (a : Response) : State := { s with response := a }

/-- A host read (R60, R68): it changes nothing in the core.
While BUSY = 1 a read of STATE or RESULT draws a free value (R48; log entry 5). -/
def hostRead (size addr : Nat) (s : State) : State :=
  match definedOffset s.params.baseAddr size addr with
  | none => s.respond .busError
  | some off =>
    match regAt off with
    | none => s.respond (.data 0)
    | some r =>
      if s.busy && r.openWhileBusy then
        { s.respond (.data (Config.busyReadValue s.draws)) with draws := s.draws + 1 }
      else s.respond (.data (s.readReg r))

/-- What a write stores while BUSY = 0 (R22, R23, R25 to R31, R36, R37, R38, R68). -/
def State.storeReg (s : State) (v : Word) : Reg → State
  | .cfg => { s with cfg := v &&& cfgWritable }
  | .poly => { s with poly := v }
  | .init => { s with initReg := v }
  | .xorout => { s with xorout := v }
  | .state => { s with crcState := v }
  | .opa => { s with opa := v }
  | .opb => { s with opb := v }
  | .data => { s with data := v }
  | .count => { s with count := v }
  | .result => s
  | .status => s.clearErrors v
  | .cmd => { s with pending := some v }
  | .cap => s

/-- The registers whose writes are dropped while BUSY = 1 (R224, R264). -/
def Reg.droppedWhileBusy : Reg → Bool
  | .result => false
  | .status => false
  | .cap => false
  | _ => true

/-- The effect of a defined write on the core: stored, or dropped with ERR_BUSY (R224, R264). -/
def State.writeReg (s : State) (v : Word) (r : Reg) : State :=
  if s.busy && r.droppedWhileBusy then { s with errors := s.errors.set .busy } else s.storeReg v r

/-- A host write (R60, R68); a write to a reserved offset is ignored (R39). -/
def hostWrite (size addr : Nat) (v : Word) (s : State) : State :=
  match definedOffset s.params.baseAddr size addr with
  | none => s.respond .busError
  | some off =>
    match regAt off with
    | none => s.respond .done
    | some r => (s.writeReg v r).respond .done

/-- A reset between two atomic events (R250): the core takes its reset values; the events still to come, the bus's last
answer and the count of draws are not the core's (log entry 9). -/
def State.applyReset (s : State) : State :=
  { State.resetOf s.params with schedule := s.schedule, response := s.response, draws := s.draws }

end Sys2Proof.Machine
end

