-- ==== Sys2Proof/Machine/Field.lean ====
section
/-! DEFINITION. The field commands (42_field_commands.md). -/

namespace Sys2Proof.Machine

/-- COMBINE (R180). -/
def execCombine (s : State) : Result := withActive s fun a => complete (s.setCrc (comb a s.crcState s.opb))

/-- ZEXT (R184). -/
def execZext (s : State) : Result := withActive s fun a => complete (s.setCrc (zx a s.crcState s.count))

/-- CLMUL (R188). -/
def execClmul (s : State) : Result :=
  withActive s fun a => complete (s.setResult (enc a (mulmod a (dec a s.opa) (dec a s.opb))))

/-- REFLECT b (R192). -/
def execReflect (b : Nat) (s : State) : Result :=
  checkArg (decide (1 ≤ b) && decide (b ≤ 64)) s (complete (s.setResult (reflect s.opa b)))

end Sys2Proof.Machine
end

