-- ==== Sys2Proof/Machine/Readback.lean ====
section
/-! DEFINITION. The read-back commands (43_readback_commands.md). -/

namespace Sys2Proof.Machine

/-- LUTRD s, b (R200). -/
def execLutrd (slice b : Nat) (s : State) : Result :=
  withActive s fun a =>
    checkArg (decide (slice < s.params.nSlice)) s
      (complete (s.setResult (tableEntry a s.params.nSlice slice (BitVec.ofNat 8 b))))

/-- FOLDRD k (R204). -/
def execFoldrd (k : Nat) (s : State) : Result :=
  withActive s fun a => checkArg (decide (k ≤ 63)) s (complete (s.setResult (foldEntry a k)))

/-- RESRD (R208). -/
def execResrd (s : State) : Result := withActive s fun a => complete (s.setResult (residue a))

end Sys2Proof.Machine
end

