-- ==== Sys2Proof/Machine/Stream.lean ====
section
/-! DEFINITION. The stream commands (41_stream_commands.md).
Each meaning runs what is left of rule R85 once the word is decoded, then its own pseudocode. -/

namespace Sys2Proof.Machine

/-- NOP (R151). -/
def execNop (s : State) : Result := complete s

/-- CONFIG (R152): ERR_PARAM, or ACTIVE from the staging registers and STATE = INITVAL under it. -/
def execConfig (s : State) : Result :=
  if stagedLegal s then
    complete ({ s with active := some (stagedActive s) }.setCrc (initVal (stagedActive s)))
  else raiseError .param s

/-- INIT (R155). -/
def execInit (s : State) : Result := withActive s fun a => complete (s.setCrc (initVal a))

/-- ZERO (R157). -/
def execZero (s : State) : Result := complete (s.setCrc 0)

/-- PROCESS len (R160). -/
def execProcess (len : Nat) (s : State) : Result :=
  withActive s fun a =>
    checkArg (decide (len ≤ 8)) s
      (complete (s.setCrc (kernel a s.params.nSlice s.crcState (dataBytes s.data len))))

/-- FINALIZE (R165). -/
def execFinalize (s : State) : Result := withActive s fun a => complete (s.setResult (fin a s.crcState))

/-- ISVALID (R170). -/
def execIsvalid (s : State) : Result :=
  withActive s fun a =>
    complete ({ s with valid := validp a s.crcState }.setResult (flagAt (validp a s.crcState) 0))

end Sys2Proof.Machine
end

