-- ==== Sys2Proof/Machine/Dispatch.lean ====
section
/-! DEFINITION. One arm per command. -/

namespace Sys2Proof.Machine

def exec (i : Instr) (s : State) : Host.Outcome State Fault Refusal :=
  match i with
  | .nop => Sys2Proof.Machine.execNop s
  | .config => Sys2Proof.Machine.execConfig s
  | .init => Sys2Proof.Machine.execInit s
  | .zero => Sys2Proof.Machine.execZero s
  | .process len => Sys2Proof.Machine.execProcess len s
  | .finalize => Sys2Proof.Machine.execFinalize s
  | .isvalid => Sys2Proof.Machine.execIsvalid s
  | .combine => Sys2Proof.Machine.execCombine s
  | .zext => Sys2Proof.Machine.execZext s
  | .clmul => Sys2Proof.Machine.execClmul s
  | .reflect b => Sys2Proof.Machine.execReflect b s
  | .lutrd slice b => Sys2Proof.Machine.execLutrd slice b s
  | .foldrd k => Sys2Proof.Machine.execFoldrd k s
  | .resrd => Sys2Proof.Machine.execResrd s

end Sys2Proof.Machine
end

