-- ==== Sys2Proof/Machine/Events.lean ====
section
/-! DEFINITION. The atomic events (rules R11, R228): a host access, a reset, the core's turn. -/

namespace Sys2Proof.Machine

/-- The core's turn: perform the pending command word, decoding it now (R80, R85, R150).
With nothing pending the core is idle and holds its state (R240; log entry 13). -/
def performPending (s : State) : Result :=
  match s.pending with
  | none => .next s
  | some c =>
    match decode c with
    | .error _ => raiseError .cmd s
    | .ok i => exec i s

/-- The effect of one event. -/
def perform (e : Event) (s : State) : Result :=
  match e with
  | .read size addr => .next (hostRead size addr s)
  | .write size addr v => .next (hostWrite size addr v s)
  | .reset => .next s.applyReset
  | .core => performPending s

/-- Take the next event off the schedule and perform it; when none is left it is the core's turn, so a pending command is
always performed in the end (R270; log entry 3). -/
def takeEvent (s : State) : Result :=
  match s.schedule with
  | [] => perform .core s
  | e :: rest => perform e { s with schedule := rest }

/-- `s` with the command word `c` placed where the core takes its next command from: in PENDING, with the core's turn next
(R41; log entry 4). -/
def State.offerCommand (s : State) (c : Word) : State :=
  { s with pending := some c, schedule := .core :: s.schedule }

end Sys2Proof.Machine
end

