-- ==== Sys2Proof/Machine/Step.lean ====
section
/-! DEFINITION. One step: the next atomic event (rules R11, R228). -/

namespace Sys2Proof.Machine

/-- One step of the machine. -/
def step (s : State) : Host.Outcome State Fault Refusal := takeEvent s

/-- `s` with an instruction of `nbits` bits placed where `step` takes its next command from (log entry 4). -/
def State.withFetchWord (s : State) (nbits w : Nat) : State :=
  s.offerCommand (BitVec.ofNat 64 (w % 2 ^ nbits))

end Sys2Proof.Machine
end

