-- ==== Sys2Proof/Machine/HostOps.lean ====
section
/-! DEFINITION. The host's notation and the pseudo-instructions of rules R90 and R91, as lists of events.
They are no commands of the core: they say which accesses a host makes and where the core's turn falls among them.
The lists hold this one host's accesses only, with every WAIT its own number of polls (log entry 17, DESIGN CHOICE). -/

namespace Sys2Proof.Machine

/-- WR REG, v (R90), for a window at `base`. -/
def wr (base : Nat) (r : Reg) (v : Word) : Event := .write 8 (base + r.offset) v

/-- RD t, REG (R90); the temporary t is the host's. -/
def rd (base : Nat) (r : Reg) : Event := .read 8 (base + r.offset)

/-- CMD mnemonic operands (R90). -/
def wrCmd (base : Nat) (i : Instr) : Event := wr base .cmd (encode i)

/-- WAIT (R91), for a core that performs its command after `polls` reads of STATUS: those reads return BUSY = 1, the core
takes its turn, and one more read returns BUSY = 0 and ends the loop.
`polls` is the host's view of LAT (R5). -/
def waitEvents (base polls : Nat) : List Event :=
  List.replicate polls (rd base .status) ++ [.core, rd base .status]

/-- EXEC op args (R91). -/
def execEvents (base polls : Nat) (i : Instr) : List Event := wrCmd base i :: waitEvents base polls

/-- SETUP W, P, I, RIN, ROUT, X (R91). -/
def setupEvents (base polls : Nat) (a : Active) : List Event :=
  [ wr base .cfg (BitVec.ofNat 64 a.w + flagAt a.rin 8 + flagAt a.rout 9), wr base .poly a.p, wr base .init a.i,
    wr base .xorout a.x ] ++ execEvents base polls .config

/-- Groups of up to eight consecutive bytes, first group first (R91); `fuel` bounds their number. -/
def byteGroups : Nat → List Byte → List (List Byte)
  | 0, _ => []
  | _ + 1, [] => []
  | fuel + 1, d :: ds => (d :: ds).take 8 :: byteGroups fuel ((d :: ds).drop 8)

/-- One group of FEED (R91). -/
def feedGroup (base polls : Nat) (g : List Byte) : List Event :=
  wr base .data (packBytes g) :: execEvents base polls (.process g.length)

/-- The groups of FEED, one after another (R91). LAT is open for each command by itself (R5), so each group's WAIT has its own
number of polls: `polls k` is the number at group k (log entry 17, DESIGN CHOICE). -/
def feedGroups (base : Nat) : (Nat → Nat) → List (List Byte) → List Event
  | _, [] => []
  | polls, g :: gs => feedGroup base (polls 0) g ++ feedGroups base (fun k => polls (k + 1)) gs

/-- FEED b0 … (R91); `polls k` is the number of polls at the WAIT of group k. -/
def feedEvents (base : Nat) (polls : Nat → Nat) (ds : List Byte) : List Event :=
  feedGroups base polls (byteGroups ds.length ds)

/-- INIT, FEED and a last command, which COMPUTE and CHECK share (R91). `polls 0` is the number of polls at INIT's WAIT and
`polls (k + 1)` the one at the WAIT of group k; the last command has its own, `lastPolls`. -/
def messageEvents (base : Nat) (polls : Nat → Nat) (lastPolls : Nat) (ds : List Byte) (last : Instr) : List Event :=
  execEvents base (polls 0) .init ++ feedEvents base (fun k => polls (k + 1)) ds ++ execEvents base lastPolls last

/-- COMPUTE b0 … (R91). -/
def computeEvents (base : Nat) (polls : Nat → Nat) (lastPolls : Nat) (ds : List Byte) : List Event :=
  messageEvents base polls lastPolls ds .finalize ++ [rd base .result]

/-- CHECK b0 … (R91), up to its read of STATUS; the AND of the host is not an access. -/
def checkEvents (base : Nat) (polls : Nat → Nat) (lastPolls : Nat) (ds : List Byte) : List Event :=
  messageEvents base polls lastPolls ds .isvalid ++ [rd base .status]

end Sys2Proof.Machine
end

