-- ==== Sys2Proof/Safety.lean ====
section
/-! DEFINITION. What a state of the core satisfies along every run, and what a run does to a pending command. -/

namespace Sys2Proof.Machine

/-- The machine invariant: N_SLICE is in its range (R5); the bits of CFG that no write stores are 0 (R21, R22); an active
configuration is legal (R40); VALID is 1 only while there is an active configuration (R34, R35: only ISVALID sets it, and
only reset undefines ACTIVE). -/
def State.Inv (s : State) : Prop :=
  s.params.Legal ∧ s.cfg &&& ~~~cfgWritable = 0 ∧ (∀ a, s.active = some a → a.Legal) ∧
    (s.valid = true → s.active.isSome = true)

/-- Two states hold the same values in everything a command reads at its step (R150): all but STATUS's error bits and the
model's own fields. -/
def State.SameOperands (s t : State) : Prop :=
  t.params = s.params ∧ t.cfg = s.cfg ∧ t.poly = s.poly ∧ t.initReg = s.initReg ∧ t.xorout = s.xorout ∧
    t.crcState = s.crcState ∧ t.opa = s.opa ∧ t.opb = s.opb ∧ t.data = s.data ∧ t.count = s.count ∧
    t.result = s.result ∧ t.valid = s.valid ∧ t.active = s.active ∧ t.pending = s.pending

/-- Two states differ at most in the model's own fields: the schedule, the bus's last answer and the count of draws. -/
def State.SameCore (s t : State) : Prop := s.SameOperands t ∧ t.errors = s.errors

/-- The column "needs ACTIVE" of the opcode map (R84, R221). -/
def needsActive : Instr → Bool
  | .nop => false
  | .config => false
  | .init => true
  | .zero => false
  | .process _ => true
  | .finalize => true
  | .isvalid => true
  | .combine => true
  | .zext => true
  | .clmul => true
  | .reflect _ => false
  | .lutrd _ _ => true
  | .foldrd _ => true
  | .resrd => true

/-- The legal argument ranges, for a core with `n` slices (R88). -/
def argInRange (n : Nat) : Instr → Bool
  | .nop => true
  | .config => true
  | .init => true
  | .zero => true
  | .process len => decide (len ≤ 8)
  | .finalize => true
  | .isvalid => true
  | .combine => true
  | .zext => true
  | .clmul => true
  | .reflect b => decide (1 ≤ b ∧ b ≤ 64)
  | .lutrd s _ => decide (s < n)
  | .foldrd k => decide (k ≤ 63)
  | .resrd => true

/-- The checks of R85 that are left once `i` is decoded all pass: ACTIVE is defined where the command needs it, the argument is
in range, and CONFIG's staged parametrisation is legal (R88, R221 to R223). -/
abbrev State.ChecksPass (s : State) (i : Instr) : Prop :=
  (needsActive i = true → s.active.isSome = true) ∧ argInRange s.params.nSlice i = true ∧
    (i = .config → stagedLegal s = true)

/-- The next event is the core's turn, and `rest` is what comes after it: an explicit turn, or nothing left to come. -/
def State.CoreTurn (s : State) (rest : List Event) : Prop :=
  s.schedule = .core :: rest ∨ (s.schedule = [] ∧ rest = [])

/-- The state after a command that raised `e` (R226). -/
def State.failed (s : State) (e : ErrorCode) : State := { s with pending := none, errors := s.errors.set e }

/-- An event is a host access. -/
def Event.isAccess : Event → Bool
  | .read _ _ => true
  | .write _ _ _ => true
  | .reset => false
  | .core => false

end Sys2Proof.Machine
end

