-- ==== Sys2Proof/Certificates/Slice0/Obligations.lean ====
section
/-! DEFINITION. The statements for the provers.
The hypothesis `s.Inv` or `a.Legal` rules out states no run reaches; `StepKeepsInvariant` and `ResetSatisfiesInvariant` state that runs keep it. -/

open Sys2Proof Sys2Proof.Machine

/-! ### Encoding -/

/-- Words written out from the examples of R89 and from R84 decode to the commands they stand for, and reserved words do not. -/
def Obligations.SpecWordsDecode : Prop :=
  decode 0x0000000000000000 = .ok .nop ∧ decode 0x0000000000000804 = .ok (.process 8) ∧
    decode 0x000000000001070B = .ok (.lutrd 7 1) ∧ decode 0x000000000000200A = .ok (.reflect 32) ∧
    decode 0x0000000000000007 = .ok .combine ∧ decode 0x0000000000003F0C = .ok (.foldrd 63) ∧
    decode 0x000000000000000E = .error .reservedOpcode ∧ decode 0x0000000000008804 = .error .reservedBitSet

/-- Decoding the assembled word of a well-formed command gives the command back: no operand bit is dropped (R82, R89). -/
def Obligations.DecodeOfEncodeIsTheCommand : Prop :=
  ∀ i : Instr, i.WellFormed → decode (encode i) = .ok i

/-- R87 and R84: a word decodes to `i` exactly when it selects a row of the opcode map and `i` is that row's command; it
selects at most one row; and what it decodes to is well formed and assembles to the same word. -/
def Obligations.EveryWordIsOneRowOrIllegal : Prop :=
  (∀ (c : Word) (i : Instr), decode c = .ok i ↔
      ∃ row ∈ opcodeMap, c &&& row.mask = row.matchBits ∧ i = row.form (argField c) (byteField c)) ∧
    (∀ (c : Word) (j k : Nat) (row row' : OpcodeRow), opcodeMap[j]? = some row → opcodeMap[k]? = some row' →
      c &&& row.mask = row.matchBits → c &&& row'.mask = row'.matchBits → j = k) ∧
    (∀ (c : Word) (i : Instr), decode c = .ok i → i.WellFormed ∧ encode i = c)

/-- The reserved encodings, field by field (R81, R83, R86): an opcode above 0x0D, a bit above BYTE, bit 15, BYTE outside LUTRD,
or ARG outside the four commands that use it. -/
def Obligations.IllegalWordsAreTheReservedEncodings : Prop :=
  ∀ c : Word, (∃ e, decode c = .error e) ↔
    (0x0D < c.toNat % 2 ^ 8 ∨ 2 ^ 24 ≤ c.toNat ∨ c.getLsbD 15 = true ∨
      (c.toNat / 2 ^ 16 % 2 ^ 8 ≠ 0 ∧ c.toNat % 2 ^ 8 ≠ 0x0B) ∨
      (c.toNat / 2 ^ 8 % 2 ^ 7 ≠ 0 ∧ c.toNat % 2 ^ 8 ∉ [0x04, 0x0A, 0x0B, 0x0C]))

/-! ### Steps of the machine -/

/-- When it is the core's turn and the pending word decodes to a command, the step is that command's meaning (R80, R85, R150).
What the step adds is only that the turn is taken off the schedule, which is the model's own field (log entry 3). -/
def Obligations.StepRunsTheDecodedCommand : Prop :=
  ∀ (s : State) (rest : List Event) (c : Word) (i : Instr), s.CoreTurn rest → s.pending = some c → decode c = .ok i →
    step s = exec i { s with schedule := rest }

/-- The other steps: a host access or a reset is performed in its place in the order, and the core is idle when nothing is
pending (R11, R228, R240). The schedule is the model's own field (log entry 3). -/
def Obligations.StepPerformsTheNextEvent : Prop :=
  ∀ (s : State) (rest : List Event),
    (∀ size addr, s.schedule = .read size addr :: rest → step s = .next (hostRead size addr { s with schedule := rest })) ∧
    (∀ size addr v, s.schedule = .write size addr v :: rest →
      step s = .next (hostWrite size addr v { s with schedule := rest })) ∧
    (s.schedule = .reset :: rest → step s = .next { s with schedule := rest }.applyReset) ∧
    (s.CoreTurn rest → s.pending = none → step s = .next { s with schedule := rest })

/-- The hardware is total (R13): no step and no command stops the machine. -/
def Obligations.EveryStepAnswersANextState : Prop :=
  (∀ s : State, ∃ t, step s = .next t) ∧ ∀ (i : Instr) (s : State), ∃ t, exec i s = .next t

/-- A pending command leaves PENDING within one step more than the events still to come: it is performed, or a reset
discards it (R270). The bound is the model's: an empty schedule is the core's turn (log entry 3). -/
def Obligations.PendingCommandIsDoneInBoundedTime : Prop :=
  ∀ s : State, s.pending.isSome = true →
    ∃ k t, k ≤ s.schedule.length + 1 ∧ core.run k s = .next t ∧ t.pending = none

/-- Host accesses between the CMD write and the command's step change nothing that the command reads (R150, R261, R264). -/
def Obligations.AccessesKeepAPendingCommandsOperands : Prop :=
  ∀ (s : State) (accesses rest : List Event), s.pending.isSome = true → (∀ e ∈ accesses, e.isAccess = true) →
    s.schedule = accesses ++ rest →
    ∃ t, core.run accesses.length s = .next t ∧ s.SameOperands t ∧ t.schedule = rest

/-- EXEC (R91): whatever number of polls the core takes, the host that writes CMD and waits finds the command performed on
the registers as they were, with BUSY = 0 in the last STATUS it read (R72, R260). The schedule and the bus's answer are the model's own fields (log entries 3, 6). -/
def Obligations.ExecPseudoInstructionPerformsTheCommand : Prop :=
  ∀ (s : State) (i : Instr) (polls : Nat) (rest : List Event), i.WellFormed → s.pending = none →
    s.schedule = execEvents s.params.baseAddr polls i ++ rest →
    ∃ u t, exec i s = .next u ∧ core.run (polls + 3) s = .next t ∧ u.SameCore t ∧ t.schedule = rest ∧
      t.response = .data u.statusWord ∧ u.statusWord.getLsbD 0 = false

/-- FEED (R91, R161): a message of any length, split into groups of at most eight bytes, is processed as one byte string,
whatever number of polls each group's WAIT takes. The schedule is the model's own field (log entries 3, 17). -/
def Obligations.FeedProcessesTheWholeMessage : Prop :=
  ∀ (s : State) (a : Active) (ds : List Byte) (polls : Nat → Nat) (rest : List Event), s.Inv → s.active = some a →
    s.pending = none → s.schedule = feedEvents s.params.baseAddr polls ds ++ rest →
    ∃ t, core.run (feedEvents s.params.baseAddr polls ds).length s = .next t ∧
      sig a t.crcState = proc a s.crcState ds ∧ t.active = some a ∧ t.pending = none ∧ t.errors = s.errors ∧
      t.schedule = rest

/-- SETUP (R91, R255): the host that stages a legal parametrisation and waits finds it active, STATE at its INITVAL, and no new
error. The schedule and the bus's answer are the model's own fields (log entries 3, 6). -/
def Obligations.SetupActivatesTheParametrisation : Prop :=
  ∀ (s : State) (a : Active) (polls : Nat) (rest : List Event), a.Legal → s.pending = none →
    s.schedule = setupEvents s.params.baseAddr polls a ++ rest →
    ∃ t, core.run (polls + 7) s = .next t ∧ t.active = some a ∧ t.crcState = initVal a ∧ t.errors = s.errors ∧
      t.valid = s.valid ∧ t.result = s.result ∧ t.pending = none ∧ t.response = .data t.statusWord ∧ t.schedule = rest

/-- COMPUTE (R91, R119): the host's last read returns the checksum of the whole message, FIN(PROC(INITVAL, message)),
whatever number of polls each WAIT takes. The schedule and the bus's answer are the model's own fields (log entries 3, 6, 17). -/
def Obligations.ComputeReturnsTheChecksum : Prop :=
  ∀ (s : State) (a : Active) (ds : List Byte) (polls : Nat → Nat) (lastPolls : Nat) (rest : List Event), s.Inv →
    s.active = some a → s.pending = none → s.schedule = computeEvents s.params.baseAddr polls lastPolls ds ++ rest →
    ∃ t, core.run (computeEvents s.params.baseAddr polls lastPolls ds).length s = .next t ∧
      t.response = .data (fin a (proc a (initVal a) ds)) ∧ t.active = some a ∧ t.errors = s.errors ∧ t.pending = none ∧
      t.schedule = rest

/-! ### Invariants and whole-machine rules -/

/-- Every step keeps the machine invariant (R5, R21, R22, R34, R35, R40). -/
def Obligations.StepKeepsInvariant : Prop :=
  ∀ s t : State, s.Inv → step s = .next t → t.Inv

/-- The reset state of a core with any legal N_SLICE satisfies the machine invariant (R47). -/
def Obligations.ResetSatisfiesInvariant : Prop :=
  State.reset.Inv ∧ ∀ p : Params, p.Legal → (State.resetOf p).Inv

/-- Reset (R47): every register is 0 but CAP, which keeps its value; STATUS is 0; ACTIVE is undefined; a pending command is
discarded; and CONFIG rejects the staging registers it leaves.
That a reset is an event of the schedule is the model's form (log entry 3). -/
def Obligations.ResetSetsEveryRegister : Prop :=
  ∀ (s : State) (rest : List Event), s.schedule = .reset :: rest →
    ∃ t, step s = .next t ∧ t.cfg = 0 ∧ t.poly = 0 ∧ t.initReg = 0 ∧ t.xorout = 0 ∧ t.crcState = 0 ∧ t.opa = 0 ∧
      t.opb = 0 ∧ t.data = 0 ∧ t.count = 0 ∧ t.result = 0 ∧ t.statusWord = 0 ∧ t.capWord = s.capWord ∧
      t.active = none ∧ t.pending = none ∧ exec .config t = .next (t.failed .param)

/-- Which command can change which register (R25, R27 to R31, R35, R40): no command changes the staging registers, the operand
registers, DATA, COUNT or the parameters; only CONFIG changes ACTIVE; only ISVALID changes VALID; and so on. -/
def Obligations.CommandsWriteOnlyTheirRegisters : Prop :=
  ∀ (i : Instr) (s t : State), exec i s = .next t →
    t.params = s.params ∧ t.cfg = s.cfg ∧ t.poly = s.poly ∧ t.initReg = s.initReg ∧ t.xorout = s.xorout ∧
      t.opa = s.opa ∧ t.opb = s.opb ∧ t.data = s.data ∧ t.count = s.count ∧ t.schedule = s.schedule ∧
      t.response = s.response ∧ t.draws = s.draws ∧ t.pending = none ∧
      (t.active ≠ s.active → i = .config) ∧ (t.valid ≠ s.valid → i = .isvalid) ∧
      (t.crcState ≠ s.crcState →
        i = .config ∨ i = .init ∨ i = .zero ∨ (∃ len, i = .process len) ∨ i = .combine ∨ i = .zext) ∧
      (t.result ≠ s.result →
        i = .finalize ∨ i = .isvalid ∨ i = .clmul ∨ (∃ b, i = .reflect b) ∨ (∃ sl b, i = .lutrd sl b) ∨
          (∃ k, i = .foldrd k) ∨ i = .resrd)

/-- Only a performed CONFIG word or a reset changes ACTIVE, and only reset undefines it (R34, R40). -/
def Obligations.ActiveChangesOnlyByConfigOrReset : Prop :=
  ∀ s t : State, step s = .next t → t.active ≠ s.active →
    (s.schedule.head? = some .reset ∧ t.active = none) ∨
      (∃ rest, s.CoreTurn rest ∧ s.pending = some 0x1 ∧ t.active.isSome = true)

/-- An error bit that is set falls only by a defined host write of 1 to it in STATUS, or by reset (R229, R38). -/
def Obligations.ErrorBitsAreSticky : Prop :=
  ∀ (s t : State) (e : ErrorCode), step s = .next t → s.errors.get e = true → t.errors.get e = false →
    s.schedule.head? = some .reset ∨
      ∃ v : Word, s.schedule.head? = some (.write 8 (s.params.baseAddr + 0x50) v) ∧ v.getLsbD e.bit = true

/-- Errors do not block (R230): what a command does does not depend on the error bits, and it leaves every error bit that was
set as it was. -/
def Obligations.ErrorBitsDoNotBlockCommands : Prop :=
  ∀ (i : Instr) (s t : State) (e : ErrorBits), exec i s = .next t →
    ∃ t', exec i { s with errors := e } = .next t' ∧ t' = { t with errors := t'.errors } ∧
      ∀ k, e.get k = true → t'.errors.get k = true

/-- Staging isolation (R24, R263): no command but CONFIG depends on CFG, POLY, INIT or XOROUT. -/
def Obligations.OnlyConfigReadsTheStagingRegisters : Prop :=
  ∀ (i : Instr) (s t : State) (cfg poly initReg xorout : Word), i ≠ .config → exec i s = .next t →
    exec i { s with cfg := cfg, poly := poly, initReg := initReg, xorout := xorout } =
      .next { t with cfg := cfg, poly := poly, initReg := initReg, xorout := xorout }

/-- Bits outside the significant field never affect a result (R25, R112): changing them in STATE, OPA and OPB changes no RESULT, no
flag and no significant bit of STATE, whatever the command; REFLECT, which reads OPA's bottom bits, is kept to an unchanged OPA. -/
def Obligations.BitsOutsideTheFieldNeverMatter : Prop :=
  ∀ (i : Instr) (s t : State) (a : Active) (r oa ob : Word), s.active = some a → a.Legal →
    sig a r = sig a s.crcState → sig a oa = sig a s.opa → sig a ob = sig a s.opb →
    ((∃ b, i = .reflect b) → oa = s.opa) → exec i s = .next t →
    ∃ t', exec i { s with crcState := r, opa := oa, opb := ob } = .next t' ∧ t'.result = t.result ∧
      t'.valid = t.valid ∧ t'.errors = t.errors ∧ t'.active = t.active ∧
      ∀ a', t.active = some a' → sig a' t'.crcState = sig a' t.crcState

/-- R26: a command that writes STATE leaves it in canonical form for the configuration then active, and ZERO leaves 0. -/
def Obligations.CommandsLeaveStateCanonical : Prop :=
  (∀ (i : Instr) (s : State) (a : Active), s.Inv → s.active = some a → argInRange s.params.nSlice i = true →
    (i = .init ∨ (∃ len, i = .process len) ∨ i = .combine ∨ i = .zext) →
    ∃ t, exec i s = .next t ∧ t.active = some a ∧ sig a t.crcState = t.crcState) ∧
  (∀ s : State, stagedLegal s = true →
    ∃ t a, exec .config s = .next t ∧ t.active = some a ∧ sig a t.crcState = t.crcState) ∧
  (∀ s : State, ∃ t, exec .zero s = .next t ∧ t.crcState = 0)

/-! ### Errors -/

/-- An illegal word at the core's turn sets ERR_CMD, empties PENDING and changes nothing else (R220, R85, R226); every opcode has
illegal words; and no legal word raises ERR_CMD. "Outside the mask" is R85's test of the word under the mask (log entry 16). -/
def Obligations.IllegalWordRaisesErrCmd : Prop :=
  (∀ (s : State) (rest : List Event) (c : Word), s.CoreTurn rest → s.pending = some c →
    (0x0D < opcField c ∨ ∃ row ∈ opcodeMap, row.opc = opcField c ∧ c &&& row.mask ≠ row.matchBits) →
    step s = .next ({ s with schedule := rest }.failed .cmd)) ∧
  (∀ k, k < 256 → ∃ c : Word, opcField c = k ∧ ∃ e, decode c = .error e) ∧
  (∀ (i : Instr) (s t : State), exec i s = .next t → t.errors.cmd = s.errors.cmd)

/-- The checks after decoding, in their order (R85, R88, R221, R222, R227): ERR_NOCFG before ERR_ARG, whatever the argument, and no
error when every check passes. -/
def Obligations.ChecksRunInOrder : Prop :=
  ∀ (i : Instr) (s : State),
    (needsActive i = true → s.active = none → exec i s = .next (s.failed .noCfg)) ∧
    ((needsActive i = true → s.active.isSome = true) → argInRange s.params.nSlice i = false →
      exec i s = .next (s.failed .arg)) ∧
    ((needsActive i = true → s.active.isSome = true) → argInRange s.params.nSlice i = true →
      (i = .config → stagedLegal s = true) → ∃ t, exec i s = .next t ∧ t.errors = s.errors ∧ t.pending = none)

/-- ERR_PARAM (R223): CONFIG raises it exactly when the staged width is 0 or above 64 or a bit of POLY, INIT or XOROUT is set at or
above position W; a failed CONFIG changes nothing else; no other command raises it. -/
def Obligations.ConfigRejectsIllegalParameters : Prop :=
  (∀ s : State,
    ((cfgWidth s.cfg = 0 ∨ 64 < cfgWidth s.cfg ∨ ∃ j, cfgWidth s.cfg ≤ j ∧
        (s.poly.getLsbD j = true ∨ s.initReg.getLsbD j = true ∨ s.xorout.getLsbD j = true)) →
      exec .config s = .next (s.failed .param)) ∧
    (¬ (cfgWidth s.cfg = 0 ∨ 64 < cfgWidth s.cfg ∨ ∃ j, cfgWidth s.cfg ≤ j ∧
        (s.poly.getLsbD j = true ∨ s.initReg.getLsbD j = true ∨ s.xorout.getLsbD j = true)) →
      ∃ t, exec .config s = .next t ∧ t.errors = s.errors ∧ t.active.isSome = true)) ∧
  ∀ (i : Instr) (s t : State), i ≠ .config → exec i s = .next t → t.errors.param = s.errors.param

/-- At the core's turn a word that is legal and passes every check leaves the error bits as they were and empties PENDING; every
other word fails, and a failed command sets one error bit and empties PENDING, and changes nothing else of the core (R226), also when
that bit was set before. The schedule is the model's own field (log entry 3). -/
def Obligations.FailedCommandChangesOnlyItsErrorBit : Prop :=
  ∀ (s t : State) (rest : List Event) (c : Word), s.CoreTurn rest → s.pending = some c → step s = .next t →
    ((∃ i, decode c = .ok i ∧ s.ChecksPass i) → t.errors = s.errors ∧ t.pending = none) ∧
      ((¬ ∃ i, decode c = .ok i ∧ s.ChecksPass i) → ∃ e, e ≠ .busy ∧ t = { s with schedule := rest }.failed e)

/-! ### Host accesses -/

/-- The STATUS word, bit by bit (R32, R33, R34). -/
def Obligations.StatusWordLayout : Prop :=
  ∀ s : State, s.statusWord.getLsbD 0 = s.pending.isSome ∧ s.statusWord.getLsbD 1 = s.active.isSome ∧
    s.statusWord.getLsbD 2 = s.valid ∧ (∀ k, 3 ≤ k → k ≤ 7 → s.statusWord.getLsbD k = false) ∧
    s.statusWord.getLsbD 8 = s.errors.cmd ∧ s.statusWord.getLsbD 9 = s.errors.noCfg ∧
    s.statusWord.getLsbD 10 = s.errors.arg ∧ s.statusWord.getLsbD 11 = s.errors.param ∧
    s.statusWord.getLsbD 12 = s.errors.busy ∧ ∀ k, 13 ≤ k → s.statusWord.getLsbD k = false

/-- A host write of v to STATUS, busy or not, clears the bits 12:8 of STATUS that are 1 in v and changes nothing else in the core (R38). -/
def Obligations.StatusWriteClearsErrorBits : Prop :=
  ∀ (s : State) (v : Word),
    (hostWrite 8 (s.params.baseAddr + 0x50) v s).statusWord = s.statusWord &&& ~~~(v &&& 0x1F00) ∧
      ∃ e r, hostWrite 8 (s.params.baseAddr + 0x50) v s = { s with errors := e, response := r }

/-- A read changes nothing in the core (R68), whatever its size and address. -/
def Obligations.ReadsHaveNoSideEffect : Prop :=
  ∀ (size addr : Nat) (s : State), s.SameCore (hostRead size addr s) ∧ (hostRead size addr s).schedule = s.schedule

/-- What a read returns, offset by offset (R20, R36, R37, R39, R48): the current value of the register, but for STATE and RESULT while
BUSY = 1, whose value is the free value of log entry 5. -/
def Obligations.ReadsReturnTheRegister : Prop :=
  ∀ s : State, s.params.Legal →
    (∀ p ∈ [(0x00, s.cfg), (0x08, s.poly), (0x10, s.initReg), (0x18, s.xorout), (0x28, s.opa), (0x30, s.opb),
        (0x38, s.data), (0x40, s.count), (0x50, s.statusWord), (0x58, 0),
        (0x60, BitVec.ofNat 64 (s.params.nSlice + 64 * 2 ^ 8 + 1 * 2 ^ 16))],
      (hostRead 8 (s.params.baseAddr + p.1) s).response = .data p.2) ∧
    (∀ p ∈ [(0x20, s.crcState), (0x48, s.result)],
      (s.pending = none → (hostRead 8 (s.params.baseAddr + p.1) s).response = .data p.2) ∧
        (s.pending.isSome = true → (hostRead 8 (s.params.baseAddr + p.1) s).response = .data (Config.busyReadValue s.draws) ∧
          (hostRead 8 (s.params.baseAddr + p.1) s).draws = s.draws + 1)) ∧
    (∀ off, 0x68 ≤ off → off ≤ 0xF8 → off % 8 = 0 → (hostRead 8 (s.params.baseAddr + off) s).response = .data 0)

/-- An access of a size other than 8, or at an offset that is not a multiple of 8, gets a bus error and changes nothing (R62, R225). -/
def Obligations.UndefinedAccessGetsABusError : Prop :=
  ∀ (s : State) (size off : Nat) (v : Word), (size ≠ 8 ∨ off % 8 ≠ 0) →
    hostRead size (s.params.baseAddr + off) s = { s with response := .busError } ∧
      hostWrite size (s.params.baseAddr + off) v s = { s with response := .busError }

/-- What a write does while BUSY = 0, offset by offset (R20, R22, R23, R25, R27 to R31, R36, R37, R39). The answer `done` is the
model's (log entry 12). -/
def Obligations.WritesStoreWhileIdle : Prop :=
  ∀ (s : State) (v : Word), s.pending = none →
    hostWrite 8 (s.params.baseAddr + 0x00) v s = { s with cfg := v &&& 0x37F, response := .done } ∧
    hostWrite 8 (s.params.baseAddr + 0x08) v s = { s with poly := v, response := .done } ∧
    hostWrite 8 (s.params.baseAddr + 0x10) v s = { s with initReg := v, response := .done } ∧
    hostWrite 8 (s.params.baseAddr + 0x18) v s = { s with xorout := v, response := .done } ∧
    hostWrite 8 (s.params.baseAddr + 0x20) v s = { s with crcState := v, response := .done } ∧
    hostWrite 8 (s.params.baseAddr + 0x28) v s = { s with opa := v, response := .done } ∧
    hostWrite 8 (s.params.baseAddr + 0x30) v s = { s with opb := v, response := .done } ∧
    hostWrite 8 (s.params.baseAddr + 0x38) v s = { s with data := v, response := .done } ∧
    hostWrite 8 (s.params.baseAddr + 0x40) v s = { s with count := v, response := .done } ∧
    hostWrite 8 (s.params.baseAddr + 0x48) v s = { s with response := .done } ∧
    hostWrite 8 (s.params.baseAddr + 0x58) v s = { s with pending := some v, response := .done } ∧
    hostWrite 8 (s.params.baseAddr + 0x60) v s = { s with response := .done } ∧
    ∀ off, 0x68 ≤ off → off ≤ 0xF8 → off % 8 = 0 →
      hostWrite 8 (s.params.baseAddr + off) v s = { s with response := .done }

/-- What a write does while BUSY = 1 (R224, R264): dropped with ERR_BUSY at the ten operand registers, ignored at RESULT, CAP and the
reserved offsets, and effective at STATUS. The answer `done` is the model's (log entry 12). -/
def Obligations.WritesWhileBusyAreDropped : Prop :=
  ∀ (s : State) (v : Word), s.pending.isSome = true →
    (∀ off ∈ [0x00, 0x08, 0x10, 0x18, 0x20, 0x28, 0x30, 0x38, 0x40, 0x58],
      hostWrite 8 (s.params.baseAddr + off) v s = { s with errors := { s.errors with busy := true }, response := .done }) ∧
    (∀ off, (off = 0x48 ∨ (0x60 ≤ off ∧ off ≤ 0xF8 ∧ off % 8 = 0)) →
      hostWrite 8 (s.params.baseAddr + off) v s = { s with response := .done }) ∧
    hostWrite 8 (s.params.baseAddr + 0x50) v s = { s with errors := s.errors.clear v, response := .done }

/-! ### The commands -/

/-- NOP changes nothing but BUSY, and ZERO sets STATE to 0; both succeed in every state (R151, R157). -/
def Obligations.NopAndZeroComplete : Prop :=
  ∀ s : State, exec .nop s = .next { s with pending := none } ∧
    exec .zero s = .next { s with crcState := 0, pending := none }

/-- CONFIG with a legal staged parametrisation (R152, R117): ACTIVE is the staged record and STATE the initial value in the new
orientation, reflected or left-aligned; nothing else changes. -/
def Obligations.ConfigActivatesTheStagedParameters : Prop :=
  ∀ s : State, 1 ≤ cfgWidth s.cfg → cfgWidth s.cfg ≤ 64 → s.poly.toNat < 2 ^ cfgWidth s.cfg →
    s.initReg.toNat < 2 ^ cfgWidth s.cfg → s.xorout.toNat < 2 ^ cfgWidth s.cfg →
    exec .config s = .next { s with
      active := some ⟨cfgWidth s.cfg, s.poly, s.initReg, s.xorout, s.cfg.getLsbD 8, s.cfg.getLsbD 9⟩
      crcState := if s.cfg.getLsbD 8 then reflect s.initReg (cfgWidth s.cfg) else s.initReg <<< (8 - cfgWidth s.cfg)
      pending := none }

/-- INIT (R155, R117). -/
def Obligations.InitSetsTheInitialState : Prop :=
  ∀ (s : State) (a : Active), s.active = some a → a.Legal →
    exec .init s = .next { s with
      crcState := if a.rin then reflect a.i a.w else a.i <<< (8 - a.w)
      pending := none }

/-- PROCESS len for len ≤ 8 (R160): STATE becomes PROC of the first len bytes of DATA, for every N_SLICE; nothing else changes. -/
def Obligations.ProcessUpdatesStateByteByByte : Prop :=
  ∀ (s : State) (a : Active) (len : Nat), s.Inv → s.active = some a → len ≤ 8 →
    exec (.process len) s = .next { s with
      crcState := enc a ((dataBytes s.data len).foldl (byteStep a) (dec a s.crcState))
      pending := none }

/-- FINALIZE (R165, R118): RESULT is the document's four steps on STATE, and STATE is unchanged. -/
def Obligations.FinalizeIsTheFourSteps : Prop :=
  ∀ (s : State) (a : Active), s.active = some a → a.Legal →
    let aligned := if a.rin = false ∧ a.w < 8 then s.crcState >>> (8 - a.w) else s.crcState
    let masked := aligned &&& mask a.w
    let oriented := if a.rin ≠ a.rout then reflect masked a.w else masked
    exec .finalize s = .next { s with result := oriented ^^^ a.x, pending := none }

/-- ISVALID and RESRD (R170, R208, R135): RESULT is the comparison with the residue, or the residue, which is W zero bits through the
shift register from the final-XOR mask in the output orientation. -/
def Obligations.IsvalidAndResrdUseTheResidue : Prop :=
  ∀ (s : State) (a : Active), s.active = some a → a.Legal →
    exec .resrd s = .next { s with result := residueSerial a, pending := none } ∧
    (sig a s.crcState = residueSerial a → exec .isvalid s = .next { s with valid := true, result := 1, pending := none }) ∧
    (sig a s.crcState ≠ residueSerial a → exec .isvalid s = .next { s with valid := false, result := 0, pending := none })

/-- COMBINE (R180, R134): STATE becomes the XOR of the significant fields of STATE and OPB; a second COMBINE with the same OPB restores
the significant field. -/
def Obligations.CombineXorsTheSignificantFields : Prop :=
  ∀ (s : State) (a : Active), s.active = some a →
    exec .combine s = .next { s with crcState := sig a s.crcState ^^^ sig a s.opb, pending := none } ∧
    exec .combine { s with crcState := sig a s.crcState ^^^ sig a s.opb } =
      .next { s with crcState := sig a s.crcState, pending := none }

/-- ZEXT (R184, R133): STATE becomes what processing COUNT zero bytes would make it, for every COUNT; nothing else changes. -/
def Obligations.ZextProcessesZeroBytes : Prop :=
  ∀ (s : State) (a : Active), s.active = some a → a.Legal →
    exec .zext s = .next { s with crcState := proc a s.crcState (List.replicate s.count.toNat 0), pending := none }

/-- CLMUL (R188, R108): RESULT is the bit-serial product of the operands' significant fields, and the order of the operands does not
matter. -/
def Obligations.ClmulIsTheBitSerialProduct : Prop :=
  ∀ (s : State) (a : Active), s.active = some a → a.Legal →
    exec .clmul s = .next { s with result := enc a (mulSerial a (dec a s.opa) (dec a s.opb)), pending := none } ∧
    exec .clmul s = .next { s with result := enc a (mulSerial a (dec a s.opb) (dec a s.opa)), pending := none }

/-- REFLECT b for 1 ≤ b ≤ 64 (R192, R103), bit by bit. -/
def Obligations.ReflectReversesTheBottomBits : Prop :=
  ∀ (s : State) (b : Nat), 1 ≤ b → b ≤ 64 →
    ∃ r : Word, exec (.reflect b) s = .next { s with result := r, pending := none } ∧
      (∀ i, i < b → r.getLsbD i = s.opa.getLsbD (b - 1 - i)) ∧ ∀ i, b ≤ i → r.getLsbD i = false

/-- LUTRD s, b (R200, R121): the entry as a modular product, which is linear in b and in canonical form. -/
def Obligations.LutrdReadsTheTableEntry : Prop :=
  ∀ (s : State) (a : Active) (slice b : Nat), s.active = some a → a.Legal → slice < s.params.nSlice → b < 256 →
    let entry (x : Nat) : Word := enc a (mulmod a (modG a (beta a (BitVec.ofNat 8 x)))
      (xpow a (8 * (s.params.nSlice - 1 - slice) + a.w)))
    exec (.lutrd slice b) s = .next { s with result := entry b, pending := none } ∧
      (∀ c, c < 256 → entry (b ^^^ c) = entry b ^^^ entry c) ∧ sig a (entry b) = entry b

/-- FOLDRD k for k ≤ 63 (R204, R130): RESULT is the register form of x^(8·2^k) mod G. -/
def Obligations.FoldrdReadsTheFoldingPower : Prop :=
  ∀ (s : State) (a : Active) (k : Nat), s.active = some a → a.Legal → k ≤ 63 →
    exec (.foldrd k) s = .next { s with result := enc a (xpow a (8 * 2 ^ k)), pending := none }

/-! ### The arithmetic -/

/-- R102: the generalised shifts satisfy the two mutually recursive equations of the rule. -/
def Obligations.GeneralisedShiftEquations : Prop :=
  ∀ (v : Word) (s : Int),
    gshl v s = (if s < 0 then gshr v (-s) else if s ≥ 64 then 0 else v <<< s.toNat) ∧
      gshr v s = (if s < 0 then gshl v (-s) else if s ≥ 64 then 0 else v >>> s.toNat)

/-- R104: the laws of reflection. -/
def Obligations.ReflectionLaws : Prop :=
  ∀ (b : Nat) (v w : Word), 1 ≤ b → b ≤ 64 → v.toNat < 2 ^ b → w.toNat < 2 ^ b →
    reflect (reflect v b) b = v ∧ reflect (v ^^^ w) b = reflect v b ^^^ reflect w b ∧ reflect 0 b = 0 ∧
      reflect (mask b) b = mask b

/-- R107: mod G is the remainder of division by G, and the only one of degree below W; mulmod and xpow are its uses. -/
def Obligations.ModGIsTheUniqueRemainder : Prop :=
  ∀ a : Active, a.Legal →
    (∀ v, modG a v < 2 ^ a.w ∧ ∃ q, v = clmul q (gen a) ^^^ modG a v) ∧
    (∀ v q r, r < 2 ^ a.w → v = clmul q (gen a) ^^^ r → r = modG a v) ∧
    (∀ u v, mulmod a u v = modG a (clmul u v)) ∧ (∀ e, xpow a e = modG a (2 ^ e)) ∧ xpow a 0 = 1

/-- R108: the bit-serial product computes mulmod, in both orientations. -/
def Obligations.BitSerialProductIsMulmod : Prop :=
  ∀ (a : Active) (u v : Nat), a.Legal → u < 2 ^ a.w → v < 2 ^ a.w →
    mulSerial a u v = mulmod a u v ∧
      mulSerialReflected a u v = reflectNat (mulmod a (reflectNat u a.w) (reflectNat v a.w)) a.w

/-- R111, R112: dec inverts enc, and enc of dec is the significant field. -/
def Obligations.EncodingAndDecodingStates : Prop :=
  ∀ a : Active, a.Legal → (∀ v, v < 2 ^ a.w → dec a (enc a v) = v) ∧ (∀ r, enc a (dec a r) = sig a r) ∧
    ∀ v, v < 2 ^ a.w → sig a (enc a v) = enc a v

/-- R113: the representation is linear, and two states are equal exactly when their significant fields are. -/
def Obligations.RepresentationIsLinear : Prop :=
  ∀ a : Active, a.Legal → (∀ r q, dec a (r ^^^ q) = dec a r ^^^ dec a q) ∧
    (∀ v u, v < 2 ^ a.w → u < 2 ^ a.w → enc a (v ^^^ u) = enc a v ^^^ enc a u) ∧
    ∀ r q, sig a r = sig a q ↔ dec a r = dec a q

/-- R115: the one-byte update is the shift register fed with the eight bits of the byte. -/
def Obligations.ByteUpdateIsEightBitSteps : Prop :=
  ∀ (a : Active) (v : Nat) (d : Byte), a.Legal → v < 2 ^ a.w → byteStep a v d = byteStepSerial a v d

/-- R116: processing is associative over concatenation and additive over states. -/
def Obligations.ProcessingIsAssociativeAndLinear : Prop :=
  ∀ (a : Active) (r q : Word) (xs ys : List Byte), a.Legal →
    proc a (proc a r xs) ys = proc a r (xs ++ ys) ∧
      proc a (r ^^^ q) xs = proc a r xs ^^^ proc a q (List.replicate xs.length 0) ∧ proc a r [] = sig a r

/-- R125: the slice-by-N kernel computes PROC for every N, every register value and every byte string, so PROCESS does not
depend on N_SLICE. -/
def Obligations.KernelComputesProcForEverySliceCount : Prop :=
  (∀ (a : Active) (n : Nat) (r : Word) (ds : List Byte), a.Legal → 1 ≤ n → kernel a n r ds = proc a r ds) ∧
  ∀ (s t : State) (n len : Nat), s.Inv → 1 ≤ n → exec (.process len) s = .next t →
    exec (.process len) { s with params := { s.params with nSlice := n } } =
      .next { t with params := { t.params with nSlice := n } }

/-- R132, R133: the closed form of zero-byte extension, and the zero-byte law. -/
def Obligations.ZeroByteExtensionLaw : Prop :=
  ∀ (a : Active) (r n : Word), a.Legal → zx a r n = proc a r (List.replicate n.toNat 0) ∧
    zx a r n = enc a (mulmod a (dec a r) (xpow a (8 * n.toNat)))

/-- R134: combination, and the combine law for every second string whose length ZX's 64-bit count can hold. -/
def Obligations.CombineLaw : Prop :=
  (∀ (a : Active) (r q : Word), comb a r q = sig a r ^^^ sig a q) ∧
  ∀ (a : Active) (xs ys : List Byte), a.Legal → ys.length < 2 ^ 64 →
    comb a (zx a (proc a (initVal a) xs) (BitVec.ofNat 64 ys.length)) (proc a 0 ys) = proc a (initVal a) (xs ++ ys)

/-- R181: chunked computation, for any number of spans and any order of the XORs, when ZX's 64-bit count can hold the number of
bytes after the first span. -/
def Obligations.ChunkedComputationEqualsProcessing : Prop :=
  ∀ (a : Active) (first : List Byte) (later : List (List Byte)) (order : List Word), a.Legal →
    later.flatten.length < 2 ^ 64 → order.Perm (shiftedSpans a (initVal a) (first :: later)) →
    order.foldl (· ^^^ ·) 0 = proc a (initVal a) (first :: later).flatten

/-- R137: a message followed by its own checksum is valid. -/
def Obligations.MessageWithItsChecksumIsValid : Prop :=
  ∀ (a : Active) (msg : List Byte), a.Legal → a.rin = a.rout → (a.w % 8 = 0 ∨ a.x = 0) →
    validp a (proc a (initVal a) (msg ++ serialize a (fin a (proc a (initVal a) msg)))) = true

/-- R138: with P ≠ 0 every single-bit change is detected, in particular in a message followed by its checksum; with P = 0, G is x^W,
every multiple of x^W is 0 mod G, and no single-bit change is detected. -/
def Obligations.SingleBitErrorsAreDetected : Prop :=
  ∀ a : Active, a.Legal →
    (a.p ≠ 0 →
      (∀ (r : Word) (ds : List Byte) (i j : Nat), i < ds.length → j < 8 →
        sig a (proc a r (flipBit ds i j)) ≠ sig a (proc a r ds)) ∧
      (a.rin = a.rout → (a.w % 8 = 0 ∨ a.x = 0) → ∀ (msg : List Byte) (i j : Nat),
        let sent := msg ++ serialize a (fin a (proc a (initVal a) msg))
        i < sent.length → j < 8 → validp a (proc a (initVal a) (flipBit sent i j)) = false)) ∧
    (a.p = 0 → (∀ j, modG a (mulX (2 ^ j) a.w) = 0) ∧
      ∀ (r : Word) (ds : List Byte) (i j : Nat), i < ds.length → j < 8 → proc a r (flipBit ds i j) = proc a r ds)
end

