-- ==== Sys2Proof/Laws/Poly.lean ====
section
/-! SUPPORT. Polynomial arithmetic over GF(2): reflection bit by bit, the carry-less product is bilinear, reduction is linear
and leaves a multiple of G. -/

namespace Sys2Proof.Machine

/-! ### Bits of numbers -/

/-- A number below 2^(n+1) is its low n bits and bit n. -/
theorem xor_top_bit (v n : Nat) (h : v < 2 ^ (n + 1)) :
    v = (v % 2 ^ n) ^^^ (if v.testBit n then 1 <<< n else 0) := by
  apply Nat.eq_of_testBit_eq
  intro i
  have hb : (if v.testBit n then 1 <<< n else 0).testBit i = (v.testBit n && decide (i = n)) := by
    cases v.testBit n
    · simp
    · simp [Nat.one_shiftLeft, Nat.testBit_two_pow, eq_comm]
  rw [Nat.testBit_xor, Nat.testBit_mod_two_pow, hb]
  rcases Nat.lt_trichotomy i n with hi | rfl | hi
  · simp [hi, Nat.ne_of_lt hi]
  · simp
  · have : v.testBit i = false := Nat.testBit_lt_two_pow (lt_of_lt_of_le h (Nat.pow_le_pow_right (by omega) hi))
    simp [this, Nat.ne_of_gt hi]

/-- Bit i of a reflection. -/
theorem testBit_reflectNat (v b i : Nat) : (reflectNat v b).testBit i = (decide (i < b) && v.testBit (b - 1 - i)) := by
  induction b generalizing v with
  | zero => simp [reflectNat]
  | succ b ih =>
    rw [reflectNat, Nat.testBit_or, ih, Nat.testBit_shiftLeft, Nat.testBit_shiftRight]
    rcases Nat.lt_trichotomy i b with hi | rfl | hi
    · have h1 : ¬ b ≤ i := by omega
      have h2 : 1 + (b - 1 - i) = b + 1 - 1 - i := by omega
      have h3 : i < b + 1 := by omega
      simp [h1, h2, h3, hi]
    · have hm : (v % 2).testBit 0 = v.testBit 0 := by simp
      simp [hm]
    · have h1 : (v % 2).testBit (i - b) = false :=
        Nat.testBit_lt_two_pow (lt_of_lt_of_le (Nat.mod_lt v (by omega)) (by
          have := Nat.pow_le_pow_right (n := 2) (by omega) (show 1 ≤ i - b by omega)
          simpa using this))
      have h2 : ¬ i < b := by omega
      have h3 : ¬ i < b + 1 := by omega
      simp [h1, h2, h3]

theorem reflectNat_lt (v b : Nat) : reflectNat v b < 2 ^ b := by
  apply Nat.lt_pow_two_of_testBit
  intro i hi
  rw [testBit_reflectNat]
  simp; omega

/-- Reflection ignores the bits from b up. -/
theorem reflectNat_reflectNat (v b : Nat) : reflectNat (reflectNat v b) b = v % 2 ^ b := by
  apply Nat.eq_of_testBit_eq
  intro i
  rw [testBit_reflectNat, testBit_reflectNat, Nat.testBit_mod_two_pow]
  by_cases hi : i < b
  · have h1 : b - 1 - i < b := by omega
    have h2 : b - 1 - (b - 1 - i) = i := by omega
    simp [hi, h1, h2]
  · simp [hi]

theorem reflectNat_xor (u v b : Nat) : reflectNat (u ^^^ v) b = reflectNat u b ^^^ reflectNat v b := by
  apply Nat.eq_of_testBit_eq
  intro i
  simp only [testBit_reflectNat, Nat.testBit_xor]
  cases decide (i < b) <;> simp

theorem reflectNat_zero (b : Nat) : reflectNat 0 b = 0 := by
  apply Nat.eq_of_testBit_eq
  intro i
  simp [testBit_reflectNat]

/-! ### The carry-less product -/

/-- The terms from the operand's length up are 0. -/
theorem clmulUpTo_of_lt (a : Nat) {b n : Nat} (h : b < 2 ^ n) (k : Nat) : clmulUpTo a b (n + k) = clmulUpTo a b n := by
  induction k with
  | zero => rfl
  | succ k ih =>
    have : b.testBit (n + k) = false :=
      Nat.testBit_lt_two_pow (lt_of_lt_of_le h (Nat.pow_le_pow_right (by omega) (by omega)))
    rw [← Nat.add_assoc, clmulUpTo, ih, this]
    simp

/-- Any bound on the second operand serves. -/
theorem clmul_eq_upTo (a : Nat) {b n : Nat} (h : b < 2 ^ n) : clmul a b = clmulUpTo a b n := by
  have hl : b < 2 ^ (b.log2 + 1) := Nat.lt_log2_self
  rcases Nat.le_total n (b.log2 + 1) with hn | hn
  · obtain ⟨k, hk⟩ := Nat.exists_eq_add_of_le hn
    rw [clmul, hk, clmulUpTo_of_lt a h]
  · obtain ⟨k, hk⟩ := Nat.exists_eq_add_of_le hn
    rw [clmul, hk, clmulUpTo_of_lt a hl]

theorem clmulUpTo_xor_left (a a' b n : Nat) :
    clmulUpTo (a ^^^ a') b n = clmulUpTo a b n ^^^ clmulUpTo a' b n := by
  induction n with
  | zero => simp [clmulUpTo]
  | succ n ih =>
    simp only [clmulUpTo, ih]
    cases b.testBit n
    · simp
    · simp only [if_true, Nat.shiftLeft_xor_distrib]
      ac_rfl

theorem clmulUpTo_xor_right (a b b' n : Nat) :
    clmulUpTo a (b ^^^ b') n = clmulUpTo a b n ^^^ clmulUpTo a b' n := by
  induction n with
  | zero => simp [clmulUpTo]
  | succ n ih =>
    simp only [clmulUpTo, ih, Nat.testBit_xor]
    cases b.testBit n <;> cases b'.testBit n <;> simp <;> try ac_rfl
    rw [Nat.xor_assoc, Nat.xor_comm (a <<< n), Nat.xor_assoc, Nat.xor_self, Nat.xor_zero]

theorem clmulUpTo_shiftLeft_left (a b k n : Nat) : clmulUpTo (a <<< k) b n = clmulUpTo a b n <<< k := by
  induction n with
  | zero => simp [clmulUpTo]
  | succ n ih =>
    simp only [clmulUpTo, ih, Nat.shiftLeft_xor_distrib]
    cases b.testBit n
    · simp
    · simp [← Nat.shiftLeft_add, Nat.add_comm]

/-- The product is additive in the first operand. -/
theorem clmul_xor_left (a a' b : Nat) : clmul (a ^^^ a') b = clmul a b ^^^ clmul a' b := clmulUpTo_xor_left ..

/-- The product is additive in the second operand. -/
theorem clmul_xor_right (a b b' : Nat) : clmul a (b ^^^ b') = clmul a b ^^^ clmul a b' := by
  obtain ⟨n, h1, h2⟩ : ∃ n, b < 2 ^ n ∧ b' < 2 ^ n :=
    ⟨b + b', lt_of_lt_of_le Nat.lt_two_pow_self (Nat.pow_le_pow_right (by omega) (by omega)),
      lt_of_lt_of_le Nat.lt_two_pow_self (Nat.pow_le_pow_right (by omega) (by omega))⟩
  rw [clmul_eq_upTo a (Nat.xor_lt_two_pow h1 h2), clmul_eq_upTo a h1, clmul_eq_upTo a h2, clmulUpTo_xor_right]

theorem clmul_zero_right (a : Nat) : clmul a 0 = 0 := by simp [clmul, clmulUpTo]

theorem clmul_zero_left (b : Nat) : clmul 0 b = 0 := by
  have h := clmul_xor_left 0 0 b
  simpa using h

/-- The product with x^k shifts. -/
theorem clmul_shiftLeft_left (a b k : Nat) : clmul (a <<< k) b = clmul a b <<< k := clmulUpTo_shiftLeft_left ..

theorem clmul_two_pow (a k : Nat) : clmul a (1 <<< k) = a <<< k := by
  rw [Nat.one_shiftLeft, clmul_eq_upTo a (n := k + 1) (Nat.pow_lt_pow_right (by omega) (by omega)), clmulUpTo]
  have h : ∀ n, n ≤ k → clmulUpTo a (2 ^ k) n = 0 := by
    intro n
    induction n with
    | zero => intro _; rfl
    | succ n ih =>
      intro hn
      rw [clmulUpTo, ih (by omega), Nat.testBit_two_pow]
      have : k ≠ n := by omega
      simp [this]
  rw [h k (le_refl k)]
  simp

/-- Additive facts about the second operand need only be shown for powers of x. -/
theorem additive_ext {f g : Nat → Nat} (hf : ∀ u v, f (u ^^^ v) = f u ^^^ f v) (hg : ∀ u v, g (u ^^^ v) = g u ^^^ g v)
    (h : ∀ k, f (1 <<< k) = g (1 <<< k)) (v : Nat) : f v = g v := by
  have f0 : f 0 = 0 := by have := hf 0 0; simpa using this
  have g0 : g 0 = 0 := by have := hg 0 0; simpa using this
  have key : ∀ n v, v < 2 ^ n → f v = g v := by
    intro n
    induction n with
    | zero => intro v hv; obtain rfl : v = 0 := by omega
              rw [f0, g0]
    | succ n ih =>
      intro v hv
      rw [xor_top_bit v n hv, hf, hg, ih _ (Nat.mod_lt _ (by positivity))]
      cases v.testBit n
      · simp [f0, g0]
      · simp only [if_true, h]
  exact key v v Nat.lt_two_pow_self

theorem clmul_one_left (b : Nat) : clmul 1 b = b :=
  additive_ext (f := clmul 1) (g := id) (fun _ _ => clmul_xor_right ..) (fun _ _ => rfl) (fun k => clmul_two_pow 1 k) b

theorem clmul_comm (a b : Nat) : clmul a b = clmul b a := by
  refine additive_ext (f := clmul a) (g := fun b => clmul b a) (fun _ _ => clmul_xor_right ..)
    (fun _ _ => clmul_xor_left ..) (fun k => ?_) b
  rw [clmul_two_pow, clmul_shiftLeft_left, clmul_one_left]

theorem clmul_shiftLeft_right (a b k : Nat) : clmul a (b <<< k) = clmul a b <<< k := by
  rw [clmul_comm, clmul_shiftLeft_left, clmul_comm]

theorem clmul_assoc (a b c : Nat) : clmul (clmul a b) c = clmul a (clmul b c) := by
  refine additive_ext (f := clmul (clmul a b)) (g := fun c => clmul a (clmul b c)) (fun _ _ => clmul_xor_right ..)
    (fun u v => ?_) (fun k => ?_) c
  · simp only [clmul_xor_right]
  · rw [clmul_two_pow, clmul_two_pow, clmul_shiftLeft_right]

/-! ### Reduction -/

/-- G has degree exactly W. -/
theorem testBit_gen (a : Active) (h : a.p.toNat < 2 ^ a.w) (i : Nat) :
    (gen a).testBit i = (a.p.toNat.testBit i || decide (i = a.w)) := by
  rw [gen, Nat.testBit_xor, Nat.testBit_two_pow]
  by_cases hi : i = a.w
  · subst hi
    simp [Nat.testBit_lt_two_pow h]
  · have : a.w ≠ i := fun h => hi h.symm
    simp [hi, this]

/-- One turn of the division clears the leading bit. -/
theorem reduce_turn_lt {g w n v : Nat} (hw : g.testBit w = true) (hg : g < 2 ^ (w + 1)) (hv : v < 2 ^ (w + (n + 1))) :
    (if v.testBit (w + n) then v ^^^ (g <<< n) else v) < 2 ^ (w + n) := by
  apply Nat.lt_pow_two_of_testBit
  intro i hi
  have high : ∀ j, w + n < j → v.testBit j = false := fun j hj =>
    Nat.testBit_lt_two_pow (lt_of_lt_of_le hv (Nat.pow_le_pow_right (by omega) (by omega)))
  split
  · next hb =>
    rw [Nat.testBit_xor, Nat.testBit_shiftLeft]
    rcases Nat.eq_or_lt_of_le hi with rfl | hi'
    · have h1 : w + n ≥ n := by omega
      have h2 : w + n - n = w := by omega
      simp [hb, h1, h2, hw]
    · have h1 : i ≥ n := by omega
      have h2 : g.testBit (i - n) = false :=
        Nat.testBit_lt_two_pow (lt_of_lt_of_le hg (Nat.pow_le_pow_right (by omega) (by omega)))
      simp [high i hi', h1, h2]
  · next hb =>
    rcases Nat.eq_or_lt_of_le hi with rfl | hi'
    · simpa using hb
    · exact high i hi'

theorem reduceFrom_lt {g w : Nat} (hw : g.testBit w = true) (hg : g < 2 ^ (w + 1)) {n v : Nat} (hv : v < 2 ^ (w + n)) :
    reduceFrom g w n v < 2 ^ w := by
  induction n generalizing v with
  | zero => exact hv
  | succ n ih => exact ih (reduce_turn_lt hw hg hv)

/-- Reduction is additive. -/
theorem reduceFrom_xor (g w n u v : Nat) : reduceFrom g w n (u ^^^ v) = reduceFrom g w n u ^^^ reduceFrom g w n v := by
  induction n generalizing u v with
  | zero => rfl
  | succ n ih =>
    simp only [reduceFrom]
    rw [← ih, Nat.testBit_xor]
    congr 1
    cases u.testBit (w + n) <;> cases v.testBit (w + n) <;> simp <;> try ac_rfl
    rw [Nat.xor_assoc, Nat.xor_comm (g <<< n), Nat.xor_assoc, Nat.xor_self, Nat.xor_zero]

/-- Reduction takes away a multiple of the divisor. -/
theorem reduceFrom_multiple (g w n v : Nat) : ∃ q, v = clmul q g ^^^ reduceFrom g w n v := by
  induction n generalizing v with
  | zero => exact ⟨0, by simp [clmul_zero_left, reduceFrom]⟩
  | succ n ih =>
    simp only [reduceFrom]
    split
    · obtain ⟨q, hq⟩ := ih (v ^^^ (g <<< n))
      refine ⟨q ^^^ (1 <<< n), ?_⟩
      rw [clmul_xor_left, clmul_shiftLeft_left, clmul_one_left, Nat.xor_comm (clmul q g), Nat.xor_assoc, ← hq,
        Nat.xor_comm v, ← Nat.xor_assoc, Nat.xor_self, Nat.zero_xor]
    · exact ih v

/-- The turns above the operand's length do nothing. -/
theorem reduceFrom_of_lt (g w : Nat) {n v : Nat} (h : v < 2 ^ (w + n)) (k : Nat) :
    reduceFrom g w (n + k) v = reduceFrom g w n v := by
  induction k with
  | zero => rfl
  | succ k ih =>
    have : v.testBit (w + (n + k)) = false :=
      Nat.testBit_lt_two_pow (lt_of_lt_of_le h (Nat.pow_le_pow_right (by omega) (by omega)))
    rw [← Nat.add_assoc, reduceFrom, this]
    exact ih

/-- Any number of turns that reaches the operand's length serves. -/
theorem modG_eq_reduceFrom (a : Active) {n v : Nat} (h : v < 2 ^ (a.w + n)) : modG a v = reduceFrom (gen a) a.w n v := by
  have hl : v < 2 ^ (a.w + (v.log2 + 1 - a.w)) :=
    lt_of_lt_of_le Nat.lt_log2_self (Nat.pow_le_pow_right (by omega) (by omega))
  rcases Nat.le_total n (v.log2 + 1 - a.w) with hn | hn
  · obtain ⟨k, hk⟩ := Nat.exists_eq_add_of_le hn
    rw [modG, hk, reduceFrom_of_lt _ _ h]
  · obtain ⟨k, hk⟩ := Nat.exists_eq_add_of_le hn
    rw [modG, hk, reduceFrom_of_lt _ _ hl]

/-- A value of degree below W is its own remainder. -/
theorem modG_of_lt (a : Active) {v : Nat} (h : v < 2 ^ a.w) : modG a v = v := by
  rw [modG_eq_reduceFrom a (n := 0) h]; rfl

/-- Reduction mod G is additive. -/
theorem modG_xor (a : Active) (u v : Nat) : modG a (u ^^^ v) = modG a u ^^^ modG a v := by
  obtain ⟨n, h1, h2⟩ : ∃ n, u < 2 ^ (a.w + n) ∧ v < 2 ^ (a.w + n) :=
    ⟨u + v, lt_of_lt_of_le Nat.lt_two_pow_self (Nat.pow_le_pow_right (by omega) (by omega)),
      lt_of_lt_of_le Nat.lt_two_pow_self (Nat.pow_le_pow_right (by omega) (by omega))⟩
  rw [modG_eq_reduceFrom a (Nat.xor_lt_two_pow h1 h2), modG_eq_reduceFrom a h1, modG_eq_reduceFrom a h2, reduceFrom_xor]

/-- A nonzero multiple of G has degree at least W: its top bit is the product of the top bits. -/
theorem testBit_clmul_top (q g n w : Nat) (hq : q < 2 ^ (n + 1)) (hqn : q.testBit n = true) (hg : g < 2 ^ (w + 1))
    (hgw : g.testBit w = true) : (clmul g q).testBit (w + n) = true := by
  have low : ∀ m, m ≤ n → clmulUpTo g q m < 2 ^ (w + n) := by
    intro m
    induction m with
    | zero => intro _; rw [clmulUpTo]; positivity
    | succ m ih =>
      intro hm
      rw [clmulUpTo]
      apply Nat.xor_lt_two_pow (ih (by omega))
      split
      · rw [Nat.shiftLeft_eq]
        calc g * 2 ^ m < 2 ^ (w + 1) * 2 ^ m := Nat.mul_lt_mul_of_pos_right hg (by positivity)
          _ = 2 ^ (w + 1 + m) := (Nat.pow_add ..).symm
          _ ≤ 2 ^ (w + n) := Nat.pow_le_pow_right (by omega) (by omega)
      · positivity
  rw [clmul_eq_upTo g hq, clmulUpTo, hqn, if_pos rfl, Nat.testBit_xor, Nat.testBit_lt_two_pow (low n (le_refl n)),
    Nat.testBit_shiftLeft]
  simp [hgw]

end Sys2Proof.Machine
end

