-- ==== Sys2Proof/Laws/Crc.lean ====
section
/-! SUPPORT. The register forms bit by bit, and reduction mod the generator of a legal configuration. -/

namespace Sys2Proof.Machine

/-! ### Reduction mod G -/

theorem gen_lt {a : Active} (h : a.Legal) : gen a < 2 ^ (a.w + 1) := by
  rw [gen]
  exact Nat.xor_lt_two_pow (Nat.pow_lt_pow_right (by omega) (by omega))
    (lt_trans h.2.2.1 (Nat.pow_lt_pow_right (by omega) (by omega)))

theorem gen_top {a : Active} (h : a.Legal) : (gen a).testBit a.w = true := by simp [testBit_gen a h.2.2.1]

theorem modG_lt {a : Active} (h : a.Legal) (v : Nat) : modG a v < 2 ^ a.w := by
  have hv : v < 2 ^ (a.w + v) := lt_of_lt_of_le Nat.lt_two_pow_self (Nat.pow_le_pow_right (by omega) (by omega))
  rw [modG_eq_reduceFrom a hv]
  exact reduceFrom_lt (gen_top h) (gen_lt h) hv

/-- A multiple of G of degree below W is 0. -/
theorem clmul_gen_eq_zero {a : Active} (h : a.Legal) {q : Nat} (hlt : clmul q (gen a) < 2 ^ a.w) : q = 0 := by
  by_contra hq
  have h1 := testBit_clmul_top q (gen a) q.log2 a.w Nat.lt_log2_self (Nat.testBit_log2 hq) (gen_lt h) (gen_top h)
  rw [clmul_comm] at h1
  rw [Nat.testBit_lt_two_pow (lt_of_lt_of_le hlt (Nat.pow_le_pow_right (by omega) (by omega)))] at h1
  cases h1

/-- A multiple of G reduces to 0. -/
theorem modG_clmul_gen {a : Active} (h : a.Legal) (q : Nat) : modG a (clmul q (gen a)) = 0 := by
  have hv : clmul q (gen a) < 2 ^ (a.w + clmul q (gen a)) :=
    lt_of_lt_of_le Nat.lt_two_pow_self (Nat.pow_le_pow_right (by omega) (by omega))
  obtain ⟨q', hq'⟩ := reduceFrom_multiple (gen a) a.w (clmul q (gen a)) (clmul q (gen a))
  rw [← modG_eq_reduceFrom a hv] at hq'
  have h2 : clmul (q ^^^ q') (gen a) = modG a (clmul q (gen a)) := by
    rw [clmul_xor_left]
    nth_rewrite 1 [hq']
    rw [Nat.xor_comm, ← Nat.xor_assoc, Nat.xor_self, Nat.zero_xor]
  have h3 : q ^^^ q' = 0 := clmul_gen_eq_zero h (by rw [h2]; exact modG_lt h _)
  rw [← h2, h3, clmul_zero_left]

/-- Every value is a multiple of G and its remainder. -/
theorem modG_multiple (a : Active) (v : Nat) : ∃ q, v = clmul q (gen a) ^^^ modG a v := by
  have hv : v < 2 ^ (a.w + v) := lt_of_lt_of_le Nat.lt_two_pow_self (Nat.pow_le_pow_right (by omega) (by omega))
  rw [modG_eq_reduceFrom a hv]
  exact reduceFrom_multiple ..

/-- A factor may be reduced before the product. -/
theorem modG_clmul_modG {a : Active} (h : a.Legal) (u v : Nat) : modG a (clmul (modG a u) v) = modG a (clmul u v) := by
  obtain ⟨q, hq⟩ := modG_multiple a u
  nth_rewrite 2 [hq]
  rw [clmul_xor_left, modG_xor, clmul_assoc, clmul_comm (gen a), ← clmul_assoc, modG_clmul_gen h, Nat.zero_xor]

/-- The product with x^e is a shift. -/
theorem clmul_mulX (v e : Nat) : clmul v (mulX 1 e) = mulX v e := clmul_two_pow v e

theorem modG_mulX_modG {a : Active} (h : a.Legal) (u e : Nat) : modG a (mulX (modG a u) e) = modG a (mulX u e) := by
  rw [← clmul_mulX, modG_clmul_modG h, clmul_mulX]

theorem mulX_mulX (v e f : Nat) : mulX (mulX v e) f = mulX v (e + f) := by simp [mulX, Nat.shiftLeft_add]

theorem mulX_xor (u v e : Nat) : mulX (u ^^^ v) e = mulX u e ^^^ mulX v e := Nat.shiftLeft_xor_distrib

/-- The powers of x multiply by adding their exponents. -/
theorem mulmod_xpow {a : Active} (h : a.Legal) (u e : Nat) : mulmod a u (xpow a e) = modG a (mulX u e) := by
  rw [mulmod, clmul_comm, xpow, modG_clmul_modG h, clmul_comm, clmul_mulX]

theorem xpow_mul_xpow {a : Active} (h : a.Legal) (e f : Nat) : mulmod a (xpow a e) (xpow a f) = xpow a (e + f) := by
  rw [mulmod_xpow h, xpow, modG_mulX_modG h, mulX_mulX, xpow]

/-! ### Masks and register forms, bit by bit -/

theorem getLsbD_mask {n : Nat} (h : n ≤ 64) (i : Nat) : (mask n).getLsbD i = decide (i < n) := by
  rw [mask, BitVec.getLsbD_ofNat, Nat.testBit_two_pow_sub_one]
  by_cases hi : i < n
  · have : i < 64 := by omega
    simp [hi, this]
  · simp [hi]

/-- Bit i of a reflected register value. -/
theorem getLsbD_reflect (v : Word) (b i : Nat) :
    (reflect v b).getLsbD i = (decide (i < 64) && decide (i < b) && v.getLsbD (b - 1 - i)) := by
  rw [reflect, BitVec.getLsbD_ofNat, testBit_reflectNat, BitVec.testBit_toNat, Bool.and_assoc]

/-- The shift amount keeps the significant field in the register. -/
theorem shiftAmount_add_le {a : Active} (h : a.Legal) : shiftAmount a + a.w ≤ 64 := by
  have h1 := h.1; have h2 := h.2.1
  unfold shiftAmount; split <;> omega

theorem shiftAmount_of_rin {a : Active} (h : a.rin = true) : shiftAmount a = 0 := by simp [shiftAmount, h]

/-- Bit i of the significant field. -/
theorem getLsbD_sig {a : Active} (h : a.Legal) (r : Word) (i : Nat) :
    (sig a r).getLsbD i = (decide (shiftAmount a ≤ i) && decide (i < shiftAmount a + a.w) && r.getLsbD i) := by
  have hle := shiftAmount_add_le h
  rw [sig, sigMask, BitVec.getLsbD_and, Bool.and_comm]
  congr 1
  cases hr : a.rin
  · simp only [Bool.false_eq_true, if_false, BitVec.getLsbD_shiftLeft, getLsbD_mask h.2.1]
    rw [Bool.eq_iff_iff]
    simp only [Bool.and_eq_true, decide_eq_true_eq, Bool.not_eq_true', decide_eq_false_iff_not]
    omega
  · have h0 := shiftAmount_of_rin hr
    simp [h0, getLsbD_mask h.2.1]

/-- Bit i of the canonical value. -/
theorem testBit_dec {a : Active} (h : a.Legal) (r : Word) (i : Nat) :
    (dec a r).testBit i =
      (decide (i < a.w) && r.getLsbD (if a.rin then a.w - 1 - i else shiftAmount a + i)) := by
  rw [dec]
  cases hr : a.rin
  · simp only [Bool.false_eq_true, if_false, BitVec.testBit_toNat, BitVec.getLsbD_and, BitVec.getLsbD_ushiftRight,
      getLsbD_mask h.2.1]
    rw [Bool.and_comm]
  · simp only [if_true, testBit_reflectNat, BitVec.testBit_toNat, BitVec.getLsbD_and, getLsbD_mask h.2.1]
    by_cases h1 : i < a.w
    · have : a.w - 1 - i < a.w := by omega
      simp [h1, this]
    · simp [h1]

theorem dec_lt {a : Active} (h : a.Legal) (r : Word) : dec a r < 2 ^ a.w := by
  apply Nat.lt_pow_two_of_testBit
  intro i hi
  rw [testBit_dec h]
  have : ¬ i < a.w := by omega
  simp [this]

/-- Bit i of a register form. -/
theorem getLsbD_enc {a : Active} (h : a.Legal) {v : Nat} (hv : v < 2 ^ a.w) (i : Nat) :
    (enc a v).getLsbD i =
      (decide (shiftAmount a ≤ i) && decide (i < shiftAmount a + a.w) &&
        v.testBit (if a.rin then a.w - 1 - i else i - shiftAmount a)) := by
  have hle := shiftAmount_add_le h
  rw [enc]
  cases hr : a.rin
  · simp only [Bool.false_eq_true, if_false, BitVec.getLsbD_ofNat, Nat.testBit_shiftLeft]
    by_cases h1 : shiftAmount a ≤ i
    · by_cases h2 : i < shiftAmount a + a.w
      · have : i < 64 := by omega
        simp [h1, h2, this]
      · have : v.testBit (i - shiftAmount a) = false :=
          Nat.testBit_lt_two_pow (lt_of_lt_of_le hv (Nat.pow_le_pow_right (by omega) (by omega)))
        simp [h2, this]
    · simp [h1]
  · have h0 := shiftAmount_of_rin hr
    simp only [if_true, BitVec.getLsbD_ofNat, testBit_reflectNat, h0]
    by_cases h2 : i < a.w
    · have : i < 64 := by omega
      simp [h2, this]
    · simp [h2]

theorem beta_lt (a : Active) (d : Byte) : beta a d < 2 ^ 8 := by
  unfold beta
  split
  · exact reflectNat_lt ..
  · exact d.isLt

/-- A byte update is a canonical value. -/
theorem byteStep_lt {a : Active} (h : a.Legal) (v : Nat) (d : Byte) : byteStep a v d < 2 ^ a.w := modG_lt h _

theorem foldl_byteStep_lt {a : Active} (h : a.Legal) {v : Nat} (hv : v < 2 ^ a.w) (ds : List Byte) :
    ds.foldl (byteStep a) v < 2 ^ a.w := by
  induction ds generalizing v with
  | nil => exact hv
  | cons d ds ih => exact ih (byteStep_lt h v d)

theorem bitStep_lt {a : Active} (h : a.Legal) (v : Nat) (m : Bool) : bitStep a v m < 2 ^ a.w := by
  have h1 : (v <<< 1) % 2 ^ a.w < 2 ^ a.w := Nat.mod_lt _ (by positivity)
  simp only [bitStep]
  split
  · exact Nat.xor_lt_two_pow h1 h.2.2.1
  · exact h1

/-- One bit of the shift register is a product with x and a reduction. -/
theorem bitStep_eq_modG {a : Active} (h : a.Legal) {v : Nat} (hv : v < 2 ^ a.w) (m : Bool) :
    bitStep a v m = modG a (mulX v 1 ^^^ (if m then mulX 1 a.w else 0)) := by
  have hsplit : v <<< 1 = (v <<< 1) % 2 ^ a.w ^^^ (if v.testBit (a.w - 1) then 1 <<< a.w else 0) := by
    have hlt : v <<< 1 < 2 ^ (a.w + 1) := by rw [Nat.shiftLeft_eq, Nat.pow_succ]; omega
    have := xor_top_bit (v <<< 1) a.w hlt
    have hb : (v <<< 1).testBit a.w = v.testBit (a.w - 1) := by
      have := h.1
      rw [Nat.testBit_shiftLeft]; simp [this]
    rwa [hb] at this
  have hx : modG a (1 <<< a.w) = a.p.toNat := by
    have : 1 <<< a.w = clmul 1 (gen a) ^^^ a.p.toNat := by
      rw [clmul_one_left, gen, Nat.xor_assoc, Nat.xor_self, Nat.xor_zero, Nat.one_shiftLeft]
    rw [this, modG_xor, modG_clmul_gen h, Nat.zero_xor, modG_of_lt a h.2.2.1]
  have hlow : modG a ((v <<< 1) % 2 ^ a.w) = (v <<< 1) % 2 ^ a.w := modG_of_lt a (Nat.mod_lt _ (by positivity))
  have h0 : modG a 0 = 0 := modG_of_lt a (by positivity)
  simp only [bitStep, mulX]
  rw [modG_xor]
  nth_rewrite 3 [hsplit]
  rw [modG_xor, hlow]
  cases v.testBit (a.w - 1) <;> cases m <;>
    simp only [Bool.false_eq_true, if_false, if_true, h0, hx, Nat.xor_zero, bne_self_eq_false, Bool.true_bne,
      Bool.false_bne, Bool.not_false]
  rw [Nat.xor_assoc, Nat.xor_self, Nat.xor_zero]

end Sys2Proof.Machine
end

