-- ==== Sys2Proof/Laws/Decode.lean ====
section
/-! SUPPORT. The fields of a command word and the three masks of the opcode map, as arithmetic on the word's value. -/

namespace Sys2Proof

/-- The part of a word that ARG fills. -/
abbrev argPart (a : Nat) : Word := BitVec.ofNat 64 a <<< 8

/-- The part of a word that BYTE fills. -/
abbrev bytePart (b : Nat) : Word := BitVec.ofNat 64 b <<< 16

theorem field_toNat (c : Word) :
    opcField c = c.toNat % 2 ^ 8 ∧ argField c = c.toNat / 2 ^ 8 % 2 ^ 7 ∧ byteField c = c.toNat / 2 ^ 16 % 2 ^ 8 := by
  simp [opcField, argField, byteField, BitVec.extractLsb'_toNat, Nat.shiftRight_eq_div_pow]

theorem argField_lt (c : Word) : argField c < 128 := by have := (field_toNat c).2.1; omega

theorem byteField_lt (c : Word) : byteField c < 256 := by have := (field_toNat c).2.2; omega

theorem opcField_lt (c : Word) : opcField c < 256 := by have := (field_toNat c).1; omega

theorem argPart_toNat (a : Nat) (h : a < 128) : (argPart a).toNat = a * 2 ^ 8 := by
  simp [argPart, Nat.shiftLeft_eq]; omega

theorem bytePart_toNat (b : Nat) (h : b < 256) : (bytePart b).toNat = b * 2 ^ 16 := by
  simp [bytePart, Nat.shiftLeft_eq]; omega

theorem and_argMask (c : Word) : c &&& 0x7F00 = argPart (argField c) := by
  rw [argPart, argField, BitVec.ofNat_toNat]
  apply BitVec.eq_of_getLsbD_eq
  intro j hj
  simp only [BitVec.getLsbD_and, BitVec.getLsbD_shiftLeft, BitVec.getLsbD_setWidth, BitVec.getLsbD_extractLsb']
  interval_cases j <;> simp

theorem and_byteMask (c : Word) : c &&& 0xFF0000 = bytePart (byteField c) := by
  rw [bytePart, byteField, BitVec.ofNat_toNat]
  apply BitVec.eq_of_getLsbD_eq
  intro j hj
  simp only [BitVec.getLsbD_and, BitVec.getLsbD_shiftLeft, BitVec.getLsbD_setWidth, BitVec.getLsbD_extractLsb']
  interval_cases j <;> simp

/-- A word is the sum of its bits under a mask and its bits outside it. -/
theorem toNat_split_mask (c m : Word) : c.toNat = (c &&& m).toNat + (c &&& ~~~m).toNat := by
  have h : (c &&& m) &&& (c &&& ~~~m) = 0 := by
    apply BitVec.eq_of_getLsbD_eq
    intro j hj
    simp only [BitVec.getLsbD_and, BitVec.getLsbD_not, hj]
    cases c.getLsbD j <;> cases m.getLsbD j <;> simp
  have h' : (c &&& m) ||| (c &&& ~~~m) = c := by
    apply BitVec.eq_of_getLsbD_eq
    intro j hj
    simp only [BitVec.getLsbD_and, BitVec.getLsbD_or, BitVec.getLsbD_not, hj]
    cases c.getLsbD j <;> cases m.getLsbD j <;> simp
  rw [← BitVec.toNat_add_of_and_eq_zero h, BitVec.add_eq_or_of_and_eq_zero _ _ h, h']

/-- The mask of the commands without operands. -/
theorem mask_none_iff (c m : Word) : c &&& 0xFFFFFFFFFFFFFFFF = m ↔ c = m := by
  have h : (0xFFFFFFFFFFFFFFFF : Word) = BitVec.allOnes 64 := by decide
  rw [h, BitVec.and_allOnes]

/-- The mask of the commands that use ARG. -/
theorem mask_arg_iff (c m : Word) :
    c &&& 0xFFFFFFFFFFFF80FF = m ↔ c.toNat = m.toNat + c.toNat / 2 ^ 8 % 2 ^ 7 * 2 ^ 8 := by
  have h := toNat_split_mask c 0xFFFFFFFFFFFF80FF
  have h3 := and_argMask c
  have e : ~~~(0xFFFFFFFFFFFF80FF : Word) = 0x7F00 := by decide
  obtain ⟨-, h4, -⟩ := field_toNat c
  rw [e, h3, argPart_toNat _ (by omega), h4] at h
  rw [← BitVec.toNat_inj]
  omega

/-- The mask of LUTRD, which uses ARG and BYTE. -/
theorem mask_argByte_iff (c m : Word) :
    c &&& 0xFFFFFFFFFF0080FF = m ↔
      c.toNat = m.toNat + c.toNat / 2 ^ 8 % 2 ^ 7 * 2 ^ 8 + c.toNat / 2 ^ 16 % 2 ^ 8 * 2 ^ 16 := by
  have h := toNat_split_mask c 0xFFFFFFFFFF0080FF
  have h' := toNat_split_mask (c &&& ~~~(0xFFFFFFFFFF0080FF : Word)) 0x7F00
  have e : c &&& ~~~(0xFFFFFFFFFF0080FF : Word) &&& (0x7F00 : Word) = c &&& (0x7F00 : Word) := by
    rw [BitVec.and_assoc]; rfl
  have e' : c &&& ~~~(0xFFFFFFFFFF0080FF : Word) &&& ~~~(0x7F00 : Word) = c &&& (0xFF0000 : Word) := by
    rw [BitVec.and_assoc]; rfl
  have h3 := and_argMask c
  have h5 := and_byteMask c
  obtain ⟨-, h4, h6⟩ := field_toNat c
  rw [e, e', h3, h5, argPart_toNat _ (by omega), h4, bytePart_toNat _ (by omega), h6] at h'
  rw [← BitVec.toNat_inj]
  omega

/-- What a successful decode says: the row at the word's opcode, its mask check, and the command it builds. -/
theorem decode_ok_iff (c : Word) (i : Instr) :
    decode c = .ok i ↔ ∃ row, opcodeMap[opcField c]? = some row ∧ c &&& row.mask = row.matchBits ∧
      i = row.form (argField c) (byteField c) := by
  unfold decode
  cases h : opcodeMap[opcField c]? with
  | none => simp
  | some row =>
    by_cases hm : c &&& row.mask = row.matchBits
    · simp [hm, eq_comm]
    · simp [hm]

/-- A word is illegal exactly when it decodes to no command. -/
theorem decode_error_iff (c : Word) : (∃ e, decode c = .error e) ↔ ¬ ∃ i, decode c = .ok i := by
  cases h : decode c <;> simp

/-- The assembled word's value, field by field. -/
theorem encode_toNat (i : Instr) (ha : i.arg < 128) (hb : i.byte < 256) :
    (encode i).toNat = i.opcode + i.arg * 2 ^ 8 + i.byte * 2 ^ 16 := by
  have ho : i.opcode < 256 := by cases i <;> simp [Instr.opcode]
  have h1 : (BitVec.ofNat 64 i.opcode).toNat = i.opcode := by simp; omega
  have e1 : i.opcode ||| i.arg * 2 ^ 8 = i.opcode + i.arg * 2 ^ 8 := by
    have := Nat.two_pow_add_eq_or_of_lt (i := 8) (b := i.opcode) (by simpa using ho) i.arg
    rw [Nat.or_comm, Nat.mul_comm i.arg, ← this, Nat.add_comm]
  have e2 : (i.opcode + i.arg * 2 ^ 8) ||| i.byte * 2 ^ 16 = i.opcode + i.arg * 2 ^ 8 + i.byte * 2 ^ 16 := by
    have := Nat.two_pow_add_eq_or_of_lt (i := 16) (b := i.opcode + i.arg * 2 ^ 8) (by omega) i.byte
    rw [Nat.or_comm, Nat.mul_comm i.byte, ← this, Nat.add_comm]
  have h2 := argPart_toNat i.arg ha
  have h3 := bytePart_toNat i.byte hb
  simp only [argPart, bytePart] at h2 h3
  rw [encode, BitVec.toNat_or, BitVec.toNat_or, h1, h2, h3, e1, e2]

/-- The operands of a well-formed command fit their fields. -/
theorem Instr.WellFormed.fits {i : Instr} (h : i.WellFormed) : i.arg < 128 ∧ i.byte < 256 := by
  cases i <;> simp_all [Instr.arg, Instr.byte, Instr.WellFormed, Instr.wellFormed, fitsArg, fitsByte]

end Sys2Proof
end

