-- ==== Sys2Proof/Laws/State.lean ====
section
/-! SUPPORT. One lemma per field per named update of State. -/

namespace Sys2Proof.Machine

section Retire
variable (s : State)
@[simp] theorem State.retire_params : (s.retire).params = s.params := rfl
@[simp] theorem State.retire_cfg : (s.retire).cfg = s.cfg := rfl
@[simp] theorem State.retire_poly : (s.retire).poly = s.poly := rfl
@[simp] theorem State.retire_initReg : (s.retire).initReg = s.initReg := rfl
@[simp] theorem State.retire_xorout : (s.retire).xorout = s.xorout := rfl
@[simp] theorem State.retire_crcState : (s.retire).crcState = s.crcState := rfl
@[simp] theorem State.retire_opa : (s.retire).opa = s.opa := rfl
@[simp] theorem State.retire_opb : (s.retire).opb = s.opb := rfl
@[simp] theorem State.retire_data : (s.retire).data = s.data := rfl
@[simp] theorem State.retire_count : (s.retire).count = s.count := rfl
@[simp] theorem State.retire_result : (s.retire).result = s.result := rfl
@[simp] theorem State.retire_valid : (s.retire).valid = s.valid := rfl
@[simp] theorem State.retire_errors : (s.retire).errors = s.errors := rfl
@[simp] theorem State.retire_active : (s.retire).active = s.active := rfl
@[simp] theorem State.retire_pending : (s.retire).pending = none := rfl
@[simp] theorem State.retire_schedule : (s.retire).schedule = s.schedule := rfl
@[simp] theorem State.retire_response : (s.retire).response = s.response := rfl
@[simp] theorem State.retire_draws : (s.retire).draws = s.draws := rfl
end Retire

section Updates
variable (s : State) (v : Word) (a : Response) (e : ErrorCode)

@[simp] theorem State.setCrc_params : (s.setCrc v).params = s.params := rfl
@[simp] theorem State.setCrc_cfg : (s.setCrc v).cfg = s.cfg := rfl
@[simp] theorem State.setCrc_poly : (s.setCrc v).poly = s.poly := rfl
@[simp] theorem State.setCrc_initReg : (s.setCrc v).initReg = s.initReg := rfl
@[simp] theorem State.setCrc_xorout : (s.setCrc v).xorout = s.xorout := rfl
@[simp] theorem State.setCrc_crcState : (s.setCrc v).crcState = v := rfl
@[simp] theorem State.setCrc_opa : (s.setCrc v).opa = s.opa := rfl
@[simp] theorem State.setCrc_opb : (s.setCrc v).opb = s.opb := rfl
@[simp] theorem State.setCrc_data : (s.setCrc v).data = s.data := rfl
@[simp] theorem State.setCrc_count : (s.setCrc v).count = s.count := rfl
@[simp] theorem State.setCrc_result : (s.setCrc v).result = s.result := rfl
@[simp] theorem State.setCrc_valid : (s.setCrc v).valid = s.valid := rfl
@[simp] theorem State.setCrc_errors : (s.setCrc v).errors = s.errors := rfl
@[simp] theorem State.setCrc_active : (s.setCrc v).active = s.active := rfl
@[simp] theorem State.setCrc_pending : (s.setCrc v).pending = s.pending := rfl
@[simp] theorem State.setCrc_schedule : (s.setCrc v).schedule = s.schedule := rfl
@[simp] theorem State.setCrc_response : (s.setCrc v).response = s.response := rfl
@[simp] theorem State.setCrc_draws : (s.setCrc v).draws = s.draws := rfl

@[simp] theorem State.setResult_params : (s.setResult v).params = s.params := rfl
@[simp] theorem State.setResult_cfg : (s.setResult v).cfg = s.cfg := rfl
@[simp] theorem State.setResult_poly : (s.setResult v).poly = s.poly := rfl
@[simp] theorem State.setResult_initReg : (s.setResult v).initReg = s.initReg := rfl
@[simp] theorem State.setResult_xorout : (s.setResult v).xorout = s.xorout := rfl
@[simp] theorem State.setResult_crcState : (s.setResult v).crcState = s.crcState := rfl
@[simp] theorem State.setResult_opa : (s.setResult v).opa = s.opa := rfl
@[simp] theorem State.setResult_opb : (s.setResult v).opb = s.opb := rfl
@[simp] theorem State.setResult_data : (s.setResult v).data = s.data := rfl
@[simp] theorem State.setResult_count : (s.setResult v).count = s.count := rfl
@[simp] theorem State.setResult_result : (s.setResult v).result = v := rfl
@[simp] theorem State.setResult_valid : (s.setResult v).valid = s.valid := rfl
@[simp] theorem State.setResult_errors : (s.setResult v).errors = s.errors := rfl
@[simp] theorem State.setResult_active : (s.setResult v).active = s.active := rfl
@[simp] theorem State.setResult_pending : (s.setResult v).pending = s.pending := rfl
@[simp] theorem State.setResult_schedule : (s.setResult v).schedule = s.schedule := rfl
@[simp] theorem State.setResult_response : (s.setResult v).response = s.response := rfl
@[simp] theorem State.setResult_draws : (s.setResult v).draws = s.draws := rfl

@[simp] theorem State.clearErrors_params : (s.clearErrors v).params = s.params := rfl
@[simp] theorem State.clearErrors_cfg : (s.clearErrors v).cfg = s.cfg := rfl
@[simp] theorem State.clearErrors_poly : (s.clearErrors v).poly = s.poly := rfl
@[simp] theorem State.clearErrors_initReg : (s.clearErrors v).initReg = s.initReg := rfl
@[simp] theorem State.clearErrors_xorout : (s.clearErrors v).xorout = s.xorout := rfl
@[simp] theorem State.clearErrors_crcState : (s.clearErrors v).crcState = s.crcState := rfl
@[simp] theorem State.clearErrors_opa : (s.clearErrors v).opa = s.opa := rfl
@[simp] theorem State.clearErrors_opb : (s.clearErrors v).opb = s.opb := rfl
@[simp] theorem State.clearErrors_data : (s.clearErrors v).data = s.data := rfl
@[simp] theorem State.clearErrors_count : (s.clearErrors v).count = s.count := rfl
@[simp] theorem State.clearErrors_result : (s.clearErrors v).result = s.result := rfl
@[simp] theorem State.clearErrors_valid : (s.clearErrors v).valid = s.valid := rfl
@[simp] theorem State.clearErrors_errors : (s.clearErrors v).errors = s.errors.clear v := rfl
@[simp] theorem State.clearErrors_active : (s.clearErrors v).active = s.active := rfl
@[simp] theorem State.clearErrors_pending : (s.clearErrors v).pending = s.pending := rfl
@[simp] theorem State.clearErrors_schedule : (s.clearErrors v).schedule = s.schedule := rfl
@[simp] theorem State.clearErrors_response : (s.clearErrors v).response = s.response := rfl
@[simp] theorem State.clearErrors_draws : (s.clearErrors v).draws = s.draws := rfl

@[simp] theorem State.respond_params : (s.respond a).params = s.params := rfl
@[simp] theorem State.respond_cfg : (s.respond a).cfg = s.cfg := rfl
@[simp] theorem State.respond_poly : (s.respond a).poly = s.poly := rfl
@[simp] theorem State.respond_initReg : (s.respond a).initReg = s.initReg := rfl
@[simp] theorem State.respond_xorout : (s.respond a).xorout = s.xorout := rfl
@[simp] theorem State.respond_crcState : (s.respond a).crcState = s.crcState := rfl
@[simp] theorem State.respond_opa : (s.respond a).opa = s.opa := rfl
@[simp] theorem State.respond_opb : (s.respond a).opb = s.opb := rfl
@[simp] theorem State.respond_data : (s.respond a).data = s.data := rfl
@[simp] theorem State.respond_count : (s.respond a).count = s.count := rfl
@[simp] theorem State.respond_result : (s.respond a).result = s.result := rfl
@[simp] theorem State.respond_valid : (s.respond a).valid = s.valid := rfl
@[simp] theorem State.respond_errors : (s.respond a).errors = s.errors := rfl
@[simp] theorem State.respond_active : (s.respond a).active = s.active := rfl
@[simp] theorem State.respond_pending : (s.respond a).pending = s.pending := rfl
@[simp] theorem State.respond_schedule : (s.respond a).schedule = s.schedule := rfl
@[simp] theorem State.respond_response : (s.respond a).response = a := rfl
@[simp] theorem State.respond_draws : (s.respond a).draws = s.draws := rfl
end Updates

section Reset
variable (s : State)

@[simp] theorem State.applyReset_params : (s.applyReset).params = s.params := rfl
@[simp] theorem State.applyReset_cfg : (s.applyReset).cfg = 0 := rfl
@[simp] theorem State.applyReset_poly : (s.applyReset).poly = 0 := rfl
@[simp] theorem State.applyReset_initReg : (s.applyReset).initReg = 0 := rfl
@[simp] theorem State.applyReset_xorout : (s.applyReset).xorout = 0 := rfl
@[simp] theorem State.applyReset_crcState : (s.applyReset).crcState = 0 := rfl
@[simp] theorem State.applyReset_opa : (s.applyReset).opa = 0 := rfl
@[simp] theorem State.applyReset_opb : (s.applyReset).opb = 0 := rfl
@[simp] theorem State.applyReset_data : (s.applyReset).data = 0 := rfl
@[simp] theorem State.applyReset_count : (s.applyReset).count = 0 := rfl
@[simp] theorem State.applyReset_result : (s.applyReset).result = 0 := rfl
@[simp] theorem State.applyReset_valid : (s.applyReset).valid = false := rfl
@[simp] theorem State.applyReset_errors : (s.applyReset).errors = ErrorBits.none := rfl
@[simp] theorem State.applyReset_active : (s.applyReset).active = none := rfl
@[simp] theorem State.applyReset_pending : (s.applyReset).pending = none := rfl
@[simp] theorem State.applyReset_schedule : (s.applyReset).schedule = s.schedule := rfl
@[simp] theorem State.applyReset_response : (s.applyReset).response = s.response := rfl
@[simp] theorem State.applyReset_draws : (s.applyReset).draws = s.draws := rfl
end Reset

end Sys2Proof.Machine
end

