-- ==== Sys2Proof/Laws/Ops.lean ====
section
/-! SUPPORT. What each shared operation can do. -/

namespace Sys2Proof.Machine

theorem complete_eq (s : State) : complete s = .next s.retire := rfl

theorem raiseError_eq (e : ErrorCode) (s : State) : raiseError e s = .next (s.failed e) := rfl

theorem withActive_none {s : State} (h : s.active = none) (k : Active → Result) :
    withActive s k = .next (s.failed .noCfg) := by simp [withActive, h, raiseError_eq]

theorem withActive_some {s : State} {a : Active} (h : s.active = some a) (k : Active → Result) :
    withActive s k = k a := by simp [withActive, h]

/-- Everything the configuration check can do. -/
theorem withActive_cases (s : State) (k : Active → Result) :
    (s.active = none ∧ withActive s k = .next (s.failed .noCfg)) ∨ ∃ a, s.active = some a ∧ withActive s k = k a := by
  cases h : s.active with
  | none => exact .inl ⟨rfl, withActive_none h k⟩
  | some a => exact .inr ⟨a, rfl, withActive_some h k⟩

theorem checkArg_true (s : State) (k : Result) : checkArg true s k = k := rfl

theorem checkArg_false (s : State) (k : Result) : checkArg false s k = .next (s.failed .arg) := rfl

/-- Everything the argument check can do. -/
theorem checkArg_cases (b : Bool) (s : State) (k : Result) :
    (b = false ∧ checkArg b s k = .next (s.failed .arg)) ∨ (b = true ∧ checkArg b s k = k) := by
  cases b
  · exact .inl ⟨rfl, rfl⟩
  · exact .inr ⟨rfl, rfl⟩

/-- Setting an error bit sets that bit and keeps the others. -/
theorem ErrorBits.get_set (e : ErrorBits) (c k : ErrorCode) : (e.set c).get k = (e.get k || decide (k = c)) := by
  cases c <;> cases k <;> simp [ErrorBits.get, ErrorBits.set]

/-- A STATUS write clears exactly the error bits it names. -/
theorem ErrorBits.get_clear (e : ErrorBits) (v : Word) (k : ErrorCode) :
    (e.clear v).get k = (e.get k && !v.getLsbD k.bit) := by
  cases k <;> rfl

/-- A one-bit field has its bit and no other. -/
theorem getLsbD_flagAt (b : Bool) (k i : Nat) (hk : k < 64) :
    (flagAt b k).getLsbD i = (b && decide (i = k)) := by
  cases b
  · simp [flagAt]
  · rw [flagAt, if_pos rfl]
    simp only [BitVec.getLsbD_shiftLeft, BitVec.getLsbD_one, Bool.true_and]
    by_cases h : i = k
    · subst h; simp [hk]
    · simp only [h, decide_false]
      rcases Nat.lt_or_gt_of_ne h with h' | h'
      · simp [h']
      · have : i - k ≠ 0 := by omega
        simp [this]

/-- Everything a host read can do: it answers on the bus, and may count one draw. -/
theorem hostRead_cases (size addr : Nat) (s : State) :
    ∃ r d, hostRead size addr s = { s with response := r, draws := d } := by
  unfold hostRead
  split
  · exact ⟨.busError, s.draws, rfl⟩
  · split
    · exact ⟨.data 0, s.draws, rfl⟩
    · split
      · exact ⟨_, s.draws + 1, rfl⟩
      · exact ⟨_, s.draws, rfl⟩

/-- The offset of a register is found in the register map, and only there. -/
theorem regAt_offset (r : Reg) : regAt r.offset = some r := by cases r <;> decide

theorem regAt_eq_some {off : Nat} {r : Reg} (h : regAt off = some r) : off = r.offset := by
  have := List.find?_some h
  exact (beq_iff_eq.mp this).symm

theorem regAt_reserved {off : Nat} (h : 0x68 ≤ off) : regAt off = none := by
  cases hr : regAt off with
  | none => rfl
  | some r => have := regAt_eq_some hr; cases r <;> simp [Reg.offset] at this <;> omega

/-- A defined access is 8 bytes wide, in the window and aligned. -/
theorem definedOffset_eq_some {base size addr off : Nat} :
    definedOffset base size addr = some off ↔ size = 8 ∧ addr = base + off ∧ off ≤ 0xF8 ∧ off % 8 = 0 := by
  unfold definedOffset
  split
  · next h =>
    obtain ⟨h1, h2, h3, h4⟩ := h
    simp only [Option.some.injEq]
    constructor
    · intro h; subst h; exact ⟨h1, by omega, h3, h4⟩
    · intro h; omega
  · next h =>
    simp only [reduceCtorEq, false_iff]
    intro h'; apply h; omega

theorem definedOffset_base_add {base off : Nat} (h : off ≤ 0xF8) (h8 : off % 8 = 0) :
    definedOffset base 8 (base + off) = some off := definedOffset_eq_some.mpr ⟨rfl, rfl, h, h8⟩

theorem definedOffset_eq_none {base size off : Nat} (h : size ≠ 8 ∨ off % 8 ≠ 0) :
    definedOffset base size (base + off) = none := by
  cases hd : definedOffset base size (base + off) with
  | none => rfl
  | some o => have := definedOffset_eq_some.mp hd; omega

theorem Reg.offset_le (r : Reg) : r.offset ≤ 0xF8 := by cases r <;> decide

theorem Reg.offset_mod (r : Reg) : r.offset % 8 = 0 := by cases r <;> decide

/-- A read of a register by its offset. -/
theorem hostRead_reg (s : State) (r : Reg) :
    hostRead 8 (s.params.baseAddr + r.offset) s =
      if s.busy && r.openWhileBusy then
        { s.respond (.data (Config.busyReadValue s.draws)) with draws := s.draws + 1 }
      else s.respond (.data (s.readReg r)) := by
  simp [hostRead, definedOffset_base_add r.offset_le r.offset_mod, regAt_offset]

/-- A write of a register by its offset. -/
theorem hostWrite_reg (s : State) (r : Reg) (v : Word) :
    hostWrite 8 (s.params.baseAddr + r.offset) v s = (s.writeReg v r).respond .done := by
  simp [hostWrite, definedOffset_base_add r.offset_le r.offset_mod, regAt_offset]

theorem hostRead_reserved (s : State) {off : Nat} (h : 0x68 ≤ off) (h' : off ≤ 0xF8) (h8 : off % 8 = 0) :
    hostRead 8 (s.params.baseAddr + off) s = s.respond (.data 0) := by
  simp [hostRead, definedOffset_base_add h' h8, regAt_reserved h]

theorem hostWrite_reserved (s : State) (v : Word) {off : Nat} (h : 0x68 ≤ off) (h' : off ≤ 0xF8) (h8 : off % 8 = 0) :
    hostWrite 8 (s.params.baseAddr + off) v s = s.respond .done := by
  simp [hostWrite, definedOffset_base_add h' h8, regAt_reserved h]

/-- Everything a host write can do: answer a bus error, be ignored, or reach one register. -/
theorem hostWrite_cases (size addr : Nat) (v : Word) (s : State) :
    hostWrite size addr v s = s.respond .busError ∨ hostWrite size addr v s = s.respond .done ∨
      ∃ r : Reg, size = 8 ∧ addr = s.params.baseAddr + r.offset ∧
        hostWrite size addr v s = (s.writeReg v r).respond .done := by
  unfold hostWrite
  split
  · exact .inl rfl
  · next off ho =>
    split
    · exact .inr (.inl rfl)
    · next r hr =>
      obtain ⟨h1, h2, -, -⟩ := definedOffset_eq_some.mp ho
      exact .inr (.inr ⟨r, h1, by rw [h2, regAt_eq_some hr], rfl⟩)

/-- Everything a register write can do. -/
theorem writeReg_cases (s : State) (v : Word) (r : Reg) :
    (s.busy = true ∧ r.droppedWhileBusy = true ∧ s.writeReg v r = { s with errors := s.errors.set .busy }) ∨
      ((s.busy = false ∨ r.droppedWhileBusy = false) ∧ s.writeReg v r = s.storeReg v r) := by
  unfold State.writeReg
  split
  · next h => simp only [Bool.and_eq_true] at h; exact .inl ⟨h.1, h.2, rfl⟩
  · next h =>
    simp only [Bool.and_eq_true, not_and, Bool.not_eq_true] at h
    refine .inr ⟨?_, rfl⟩
    cases hb : s.busy
    · exact .inl rfl
    · exact .inr (h hb)

end Sys2Proof.Machine
end

