-- ==== Sys2Proof/Laws/Exec.lean ====
section
/-! SUPPORT. What each command and each step can do. -/

namespace Sys2Proof.Machine

/-- What a command that passes its checks leaves: it may write ACTIVE, VALID, STATE and RESULT, and it empties PENDING. -/
def State.done (s : State) (act : Option Active) (v : Bool) (c r : Word) : State :=
  { s with active := act, valid := v, crcState := c, result := r, pending := none }

theorem exec_config_legal {s : State} (h : stagedLegal s = true) :
    exec .config s = .next (s.done (some (stagedActive s)) s.valid (initVal (stagedActive s)) s.result) := by
  simp [exec, execConfig, h, complete_eq, State.done, State.retire, State.setCrc]

theorem exec_config_illegal {s : State} (h : stagedLegal s = false) :
    exec .config s = .next (s.failed .param) := by
  simp [exec, execConfig, h, raiseError_eq]

theorem exec_init_some {s : State} {a : Active} (h : s.active = some a) :
    exec .init s = .next (s.done s.active s.valid (initVal a) s.result) := by
  simp [exec, execInit, withActive_some h, complete_eq, State.done, State.retire, State.setCrc]

theorem exec_process_some {s : State} {a : Active} {len : Nat} (h : s.active = some a) (hl : len ≤ 8) :
    exec (.process len) s =
      .next (s.done s.active s.valid (kernel a s.params.nSlice s.crcState (dataBytes s.data len)) s.result) := by
  simp [exec, execProcess, withActive_some h, hl, checkArg_true, complete_eq, State.done, State.retire, State.setCrc]

theorem exec_finalize_some {s : State} {a : Active} (h : s.active = some a) :
    exec .finalize s = .next (s.done s.active s.valid s.crcState (fin a s.crcState)) := by
  simp [exec, execFinalize, withActive_some h, complete_eq, State.done, State.retire, State.setResult]

theorem exec_isvalid_some {s : State} {a : Active} (h : s.active = some a) :
    exec .isvalid s =
      .next (s.done s.active (validp a s.crcState) s.crcState (flagAt (validp a s.crcState) 0)) := by
  simp [exec, execIsvalid, withActive_some h, complete_eq, State.done, State.retire, State.setResult]

theorem exec_combine_some {s : State} {a : Active} (h : s.active = some a) :
    exec .combine s = .next (s.done s.active s.valid (comb a s.crcState s.opb) s.result) := by
  simp [exec, execCombine, withActive_some h, complete_eq, State.done, State.retire, State.setCrc]

theorem exec_zext_some {s : State} {a : Active} (h : s.active = some a) :
    exec .zext s = .next (s.done s.active s.valid (zx a s.crcState s.count) s.result) := by
  simp [exec, execZext, withActive_some h, complete_eq, State.done, State.retire, State.setCrc]

theorem exec_clmul_some {s : State} {a : Active} (h : s.active = some a) :
    exec .clmul s = .next (s.done s.active s.valid s.crcState (enc a (mulmod a (dec a s.opa) (dec a s.opb)))) := by
  simp [exec, execClmul, withActive_some h, complete_eq, State.done, State.retire, State.setResult]

theorem exec_reflect_legal {s : State} {b : Nat} (h : 1 ≤ b) (h' : b ≤ 64) :
    exec (.reflect b) s = .next (s.done s.active s.valid s.crcState (reflect s.opa b)) := by
  simp [exec, execReflect, h, h', checkArg_true, complete_eq, State.done, State.retire, State.setResult]

theorem exec_lutrd_some {s : State} {a : Active} {slice b : Nat} (h : s.active = some a) (hs : slice < s.params.nSlice) :
    exec (.lutrd slice b) s =
      .next (s.done s.active s.valid s.crcState (tableEntry a s.params.nSlice slice (BitVec.ofNat 8 b))) := by
  simp [exec, execLutrd, withActive_some h, hs, checkArg_true, complete_eq, State.done, State.retire, State.setResult]

theorem exec_foldrd_some {s : State} {a : Active} {k : Nat} (h : s.active = some a) (hk : k ≤ 63) :
    exec (.foldrd k) s = .next (s.done s.active s.valid s.crcState (foldEntry a k)) := by
  simp [exec, execFoldrd, withActive_some h, hk, checkArg_true, complete_eq, State.done, State.retire, State.setResult]

theorem exec_resrd_some {s : State} {a : Active} (h : s.active = some a) :
    exec .resrd s = .next (s.done s.active s.valid s.crcState (residue a)) := by
  simp [exec, execResrd, withActive_some h, complete_eq, State.done, State.retire, State.setResult]

/-- Without an active configuration a command that needs one fails. -/
theorem exec_unconfigured {i : Instr} {s : State} (hn : needsActive i = true) (h : s.active = none) :
    exec i s = .next (s.failed .noCfg) := by
  cases i <;> simp [needsActive] at hn <;>
    simp [exec, execInit, execProcess, execFinalize, execIsvalid, execCombine, execZext, execClmul, execLutrd, execFoldrd,
      execResrd, withActive_none h]

/-- With the configuration it needs, a command whose argument is out of range fails. -/
theorem exec_argOutOfRange {i : Instr} {s : State} (hn : needsActive i = true → s.active.isSome = true)
    (h : argInRange s.params.nSlice i = false) : exec i s = .next (s.failed .arg) := by
  cases i <;> simp only [argInRange, decide_eq_false_iff_not, Bool.true_eq_false] at h
  case reflect b =>
    have : (decide (1 ≤ b) && decide (b ≤ 64)) = false := by simp; omega
    simp [exec, execReflect, this, checkArg_false]
  all_goals
    obtain ⟨a, ha⟩ := Option.isSome_iff_exists.mp (hn rfl)
    simp [exec, execProcess, execLutrd, execFoldrd, withActive_some ha, h, checkArg_false]

/-- Everything a command can do once it is decoded: fail one check, or pass them all and write its own registers. -/
theorem exec_cases (i : Instr) (s : State) :
    (∃ e, ((e = .noCfg ∧ needsActive i = true ∧ s.active = none) ∨
        (e = .arg ∧ (needsActive i = true → s.active.isSome = true) ∧ argInRange s.params.nSlice i = false) ∨
        (e = .param ∧ i = .config ∧ stagedLegal s = false)) ∧ exec i s = .next (s.failed e)) ∨
    (s.ChecksPass i ∧ ∃ act v c r, exec i s = .next (s.done act v c r) ∧
      (i ≠ .config → act = s.active) ∧ (i = .config → act = some (stagedActive s)) ∧ (i ≠ .isvalid → v = s.valid) ∧
      (c ≠ s.crcState → i = .config ∨ i = .init ∨ i = .zero ∨ (∃ len, i = .process len) ∨ i = .combine ∨ i = .zext) ∧
      (r ≠ s.result → i = .finalize ∨ i = .isvalid ∨ i = .clmul ∨ (∃ b, i = .reflect b) ∨
        (∃ sl b, i = .lutrd sl b) ∨ (∃ k, i = .foldrd k) ∨ i = .resrd)) := by
  by_cases hn : needsActive i = true ∧ s.active = none
  · exact .inl ⟨.noCfg, .inl ⟨rfl, hn⟩, exec_unconfigured hn.1 hn.2⟩
  have hn' : needsActive i = true → s.active.isSome = true := by
    intro h
    cases ha : s.active with
    | none => exact absurd ⟨h, ha⟩ hn
    | some a => rfl
  cases hr : argInRange s.params.nSlice i with
  | false => exact .inl ⟨.arg, .inr (.inl ⟨rfl, hn', rfl⟩), exec_argOutOfRange hn' hr⟩
  | true =>
    by_cases hc : i = .config ∧ stagedLegal s = false
    · obtain ⟨rfl, hl⟩ := hc
      exact .inl ⟨.param, .inr (.inr ⟨rfl, rfl, hl⟩), exec_config_illegal hl⟩
    have hc' : i = .config → stagedLegal s = true := by
      intro h
      cases hl : stagedLegal s with
      | false => exact absurd ⟨h, hl⟩ hc
      | true => rfl
    refine .inr ⟨⟨hn', hr, hc'⟩, ?_⟩
    have ha : needsActive i = true → ∃ a, s.active = some a := fun h => Option.isSome_iff_exists.mp (hn' h)
    cases i
    case nop => exact ⟨s.active, s.valid, s.crcState, s.result, rfl, by simp⟩
    case zero => exact ⟨s.active, s.valid, 0, s.result, rfl, by simp⟩
    case config => exact ⟨_, _, _, _, exec_config_legal (hc' rfl), by simp⟩
    case reflect b =>
      simp only [argInRange, decide_eq_true_eq] at hr
      exact ⟨_, _, _, _, exec_reflect_legal hr.1 hr.2, by simp⟩
    case init => obtain ⟨a, ha⟩ := ha rfl; exact ⟨_, _, _, _, exec_init_some ha, by simp⟩
    case process len =>
      obtain ⟨a, ha⟩ := ha rfl
      exact ⟨_, _, _, _, exec_process_some ha (by simpa [argInRange] using hr), by simp⟩
    case finalize => obtain ⟨a, ha⟩ := ha rfl; exact ⟨_, _, _, _, exec_finalize_some ha, by simp⟩
    case isvalid => obtain ⟨a, ha⟩ := ha rfl; exact ⟨_, _, _, _, exec_isvalid_some ha, by simp⟩
    case combine => obtain ⟨a, ha⟩ := ha rfl; exact ⟨_, _, _, _, exec_combine_some ha, by simp⟩
    case zext => obtain ⟨a, ha⟩ := ha rfl; exact ⟨_, _, _, _, exec_zext_some ha, by simp⟩
    case clmul => obtain ⟨a, ha⟩ := ha rfl; exact ⟨_, _, _, _, exec_clmul_some ha, by simp⟩
    case lutrd sl b =>
      obtain ⟨a, ha⟩ := ha rfl
      exact ⟨_, _, _, _, exec_lutrd_some ha (by simpa [argInRange] using hr), by simp⟩
    case foldrd k =>
      obtain ⟨a, ha⟩ := ha rfl
      exact ⟨_, _, _, _, exec_foldrd_some ha (by simpa [argInRange] using hr), by simp⟩
    case resrd => obtain ⟨a, ha⟩ := ha rfl; exact ⟨_, _, _, _, exec_resrd_some ha, by simp⟩

/-- The core's turn does not depend on how the schedule says so. -/
theorem step_coreTurn {s : State} {rest : List Event} (h : s.CoreTurn rest) :
    step s = performPending { s with schedule := rest } := by
  rcases h with h | ⟨h, rfl⟩
  · simp [step, takeEvent, h, perform]
  · have hs : s = { s with schedule := [] } := by rw [← h]
    simp only [step, takeEvent, h, perform]
    rw [← hs]

/-- Everything a step can do: a host access, a reset, or the core's turn. -/
theorem step_cases (s : State) :
    (∃ size addr rest, s.schedule = .read size addr :: rest ∧
        step s = .next (hostRead size addr { s with schedule := rest })) ∨
    (∃ size addr v rest, s.schedule = .write size addr v :: rest ∧
        step s = .next (hostWrite size addr v { s with schedule := rest })) ∨
    (∃ rest, s.schedule = .reset :: rest ∧ step s = .next { s with schedule := rest }.applyReset) ∨
    (∃ rest, s.CoreTurn rest ∧ step s = performPending { s with schedule := rest }) := by
  match h : s.schedule with
  | [] => exact .inr (.inr (.inr ⟨[], .inr ⟨h, rfl⟩, step_coreTurn (.inr ⟨h, rfl⟩)⟩))
  | .read size addr :: rest => exact .inl ⟨size, addr, rest, rfl, by simp [step, takeEvent, h, perform]⟩
  | .write size addr v :: rest => exact .inr (.inl ⟨size, addr, v, rest, rfl, by simp [step, takeEvent, h, perform]⟩)
  | .reset :: rest => exact .inr (.inr (.inl ⟨rest, rfl, by simp [step, takeEvent, h, perform]⟩))
  | .core :: rest => exact .inr (.inr (.inr ⟨rest, .inl h, step_coreTurn (.inl h)⟩))

/-- Everything the core's turn can do. -/
theorem performPending_cases (s : State) :
    (s.pending = none ∧ performPending s = .next s) ∨
    (∃ c e, s.pending = some c ∧ decode c = .error e ∧ performPending s = .next (s.failed .cmd)) ∨
    (∃ c i, s.pending = some c ∧ decode c = .ok i ∧ performPending s = exec i s) := by
  unfold performPending
  cases h : s.pending with
  | none => exact .inl ⟨rfl, rfl⟩
  | some c =>
    cases hd : decode c with
    | error e => exact .inr (.inl ⟨c, e, rfl, hd, by simp [hd, raiseError_eq]⟩)
    | ok i => exact .inr (.inr ⟨c, i, rfl, hd, by simp [hd]⟩)

end Sys2Proof.Machine
end

