-- ==== Sys2Proof/Laws/Message.lean ====
section
/-! SUPPORT. Messages as polynomials: the bit and byte updates in closed form, the bytes of DATA, the generalised shifts bit by
bit. -/

namespace Sys2Proof.Machine

/-- A number below 2^n has no bit from n on. -/
theorem testBit_eq_false_of_lt {v n i : Nat} (h : v < 2 ^ n) (hi : n ≤ i) : v.testBit i = false :=
  Nat.testBit_lt_two_pow (lt_of_lt_of_le h (Nat.pow_le_pow_right (by omega) hi))

/-- The product mod G is associative. -/
theorem mulmod_assoc {a : Active} (h : a.Legal) (u v x) : mulmod a (mulmod a u v) x = mulmod a u (mulmod a v x) := by
  simp only [mulmod]
  rw [modG_clmul_modG h, clmul_comm u (modG _ _), modG_clmul_modG h, clmul_comm _ u, clmul_assoc]

/-- The polynomial a list of input bits stands for, first bit highest. -/
def bitsPoly (bs : List Bool) : Nat := bs.foldl (fun acc m => mulX acc 1 ^^^ (if m then 1 else 0)) 0

/-- Taking in bits one at a time, in closed form. -/
theorem foldl_bitStep {a : Active} (h : a.Legal) {v} (hv : v < 2 ^ a.w) (bs : List Bool) :
    bs.foldl (bitStep a) v = modG a (mulX v bs.length ^^^ mulX (bitsPoly bs) a.w) := by
  induction bs using List.reverseRecOn with
  | nil => simp [bitsPoly, mulX, modG_of_lt a hv]
  | append_singleton bs m ih =>
    have hlt : bs.foldl (bitStep a) v < 2 ^ a.w := by rw [ih]; exact modG_lt h _
    rw [List.foldl_append]
    simp only [List.foldl_cons, List.foldl_nil]
    rw [bitStep_eq_modG h hlt, ih, modG_xor, modG_mulX_modG h, ← modG_xor, mulX_xor, mulX_mulX, mulX_mulX]
    congr 1
    simp only [bitsPoly, List.foldl_append, List.foldl_cons, List.foldl_nil, List.length_append, List.length_singleton]
    rw [mulX_xor, mulX_mulX, Nat.add_comm 1 a.w, Nat.xor_assoc]
    congr 2
    cases m <;> simp [mulX]

theorem bitsPoly_byte : ∀ b, b < 256 → bitsPoly ((List.range 8).map fun j => b.testBit (7 - j)) = b := by
  decide +kernel

theorem beta_zero (a) : beta a 0 = 0 := by unfold beta; split <;> decide

theorem beta_xor (a d e) : beta a (d ^^^ e) = beta a d ^^^ beta a e := by
  unfold beta; split
  · rw [BitVec.toNat_xor, reflectNat_xor]
  · rw [BitVec.toNat_xor]

theorem byteStep_xor {a : Active} (u v : Nat) (d e) : byteStep a (u ^^^ v) (d ^^^ e) = byteStep a u d ^^^ byteStep a v e := by
  rw [byteStep, byteStep, byteStep, ← modG_xor, beta_xor, mulX_xor, mulX_xor]; congr 1; ac_rfl

/-- The polynomial a message stands for: its bytes in order, each as `beta` reads it. -/
def messagePoly (a : Active) (ds : List Byte) : Nat := ds.foldl (fun acc d => mulX acc 8 ^^^ beta a d) 0

/-- Taking in bytes one at a time, in closed form. -/
theorem foldl_byteStep {a : Active} (h : a.Legal) {v} (hv : v < 2 ^ a.w) (ds : List Byte) :
    ds.foldl (byteStep a) v = modG a (mulX v (8 * ds.length) ^^^ mulX (messagePoly a ds) a.w) := by
  induction ds using List.reverseRecOn with
  | nil => simp [messagePoly, mulX, modG_of_lt a hv]
  | append_singleton bs m ih =>
    rw [List.foldl_append]
    simp only [List.foldl_cons, List.foldl_nil]
    rw [byteStep, ih, modG_xor, modG_mulX_modG h, ← modG_xor, mulX_xor, mulX_mulX, mulX_mulX]
    congr 1
    simp only [messagePoly, List.foldl_append, List.foldl_cons, List.foldl_nil, List.length_append, List.length_singleton]
    rw [mulX_xor, mulX_mulX, Nat.add_comm 8 a.w, Nat.xor_assoc]
    congr 2

theorem messagePoly_append (a) (xs ys : List Byte) : messagePoly a (xs ++ ys) = mulX (messagePoly a xs) (8 * ys.length) ^^^ messagePoly a ys := by
  induction ys using List.reverseRecOn with
  | nil => simp [messagePoly, mulX]
  | append_singleton ys d ih =>
    rw [← List.append_assoc, messagePoly, List.foldl_append, ← messagePoly, ih]
    simp only [List.foldl_cons, List.foldl_nil, List.length_append, List.length_singleton]
    have e : messagePoly a (ys ++ [d]) = mulX (messagePoly a ys) 8 ^^^ beta a d := by rw [messagePoly, List.foldl_append]; rfl
    rw [mulX_xor, mulX_mulX, e, Nat.xor_assoc, Nat.mul_add, Nat.mul_one]

theorem messagePoly_singleton (a d) : messagePoly a [d] = beta a d := by simp [messagePoly, mulX]

theorem messagePoly_cons (a) (d : Byte) (ds : List Byte) : messagePoly a (d :: ds) = mulX (beta a d) (8 * ds.length) ^^^ messagePoly a ds := by
  rw [show d :: ds = [d] ++ ds from rfl, messagePoly_append, messagePoly_singleton]

theorem dataBytes_succ (v : Word) (n) : dataBytes v (n+1) = dataBytes v n ++ [byteLane v n] := by
  simp [dataBytes, List.range_succ]

theorem dataBytes_length (v : Word) (n) : (dataBytes v n).length = n := by simp [dataBytes]

theorem byteLane_toNat_testBit (v : Word) (n k) : (byteLane v n).toNat.testBit k = (decide (k < 8) && v.getLsbD (8 * n + k)) := by
  rw [byteLane, BitVec.testBit_toNat, BitVec.getLsbD_extractLsb']

theorem messagePoly_msb {a : Active} (hr : a.rin = false) (v : Word) (n) : messagePoly a (dataBytes v n).reverse = v.toNat % 2 ^ (8 * n) := by
  induction n with
  | zero => simp [dataBytes, messagePoly, Nat.mod_one]
  | succ n ih =>
    rw [dataBytes_succ, List.reverse_append, messagePoly_append, ih, List.reverse_singleton, messagePoly_singleton, List.length_reverse, dataBytes_length]
    simp only [beta, hr, Bool.false_eq_true, if_false]
    apply Nat.eq_of_testBit_eq; intro i
    rw [Nat.testBit_xor, mulX, Nat.testBit_shiftLeft, byteLane_toNat_testBit, Nat.testBit_mod_two_pow, Nat.testBit_mod_two_pow, BitVec.testBit_toNat]
    by_cases h1 : i < 8 * n
    · have h2 : ¬ 8 * n ≤ i := by omega
      have h3 : i < 8 * (n+1) := by omega
      simp [h1, h2, h3]
    · have h2 : 8 * n ≤ i := by omega
      have h4 : 8 * n + (i - 8 * n) = i := by omega
      by_cases h3 : i < 8 * (n+1)
      · have h5 : i - 8 * n < 8 := by omega
        simp [h1, h2, h3, h4, h5]
      · have h5 : ¬ i - 8 * n < 8 := by omega
        simp [h1, h2, h3, h5]

theorem messagePoly_lsb {a : Active} (hr : a.rin = true) (v : Word) (n) : messagePoly a (dataBytes v n) = reflectNat v.toNat (8 * n) := by
  induction n with
  | zero => simp [dataBytes, messagePoly, reflectNat]
  | succ n ih =>
    rw [dataBytes_succ, messagePoly_append, ih, messagePoly_singleton]
    simp only [beta, hr, if_true, List.length_singleton]
    apply Nat.eq_of_testBit_eq; intro i
    rw [Nat.testBit_xor, mulX, Nat.testBit_shiftLeft, testBit_reflectNat, testBit_reflectNat, testBit_reflectNat, byteLane_toNat_testBit, BitVec.testBit_toNat, BitVec.testBit_toNat]
    by_cases h1 : i < 8
    · have h2 : ¬ 8 * 1 ≤ i := by omega
      have h3 : i < 8 * (n+1) := by omega
      have h4 : 8 * n + (8 - 1 - i) = 8 * (n + 1) - 1 - i := by omega
      have h5 : 8 - 1 - i < 8 := by omega
      simp only [h1, h2, h3, h4, h5, decide_true, decide_false, Bool.false_and, Bool.true_and, Bool.false_bne]
    · have h2 : 8 * 1 ≤ i := by omega
      by_cases h3 : i < 8 * (n+1)
      · have h4 : i - 8 * 1 < 8 * n := by omega
        have h5 : 8 * n - 1 - (i - 8 * 1) = 8 * (n + 1) - 1 - i := by omega
        simp only [h1, h2, h3, h4, h5, decide_true, decide_false, Bool.false_and, Bool.true_and, Bool.bne_false]
      · have h4 : ¬ i - 8 * 1 < 8 * n := by omega
        simp only [h1, h2, h3, h4, decide_true, decide_false, Bool.false_and, Bool.and_false, Bool.bne_false]

theorem testBit_clmul_zero (q g : Nat) : (clmul g q).testBit 0 = (g.testBit 0 && q.testBit 0) := by
  have key : ∀ n, (clmulUpTo g q (n+1)).testBit 0 = (g.testBit 0 && q.testBit 0) := by
    intro n
    induction n with
    | zero => cases h : q.testBit 0 <;> simp [clmulUpTo] <;> simp_all
    | succ n ih =>
      rw [clmulUpTo, Nat.testBit_xor, ih]
      cases q.testBit (n+1) <;> simp
  rw [clmul, key]

/-- A nonzero polynomial is an odd one times a power of x. -/
theorem exists_odd_shift (q : Nat) (h : q ≠ 0) : ∃ s q', q = q' <<< s ∧ q'.testBit 0 = true := by
  induction q using Nat.strongRecOn with
  | _ q ih =>
    rcases Nat.mod_two_eq_zero_or_one q with e | e
    · obtain ⟨s, q', h1, h2⟩ := ih (q/2) (by omega) (by omega)
      refine ⟨s+1, q', ?_, h2⟩
      rw [Nat.shiftLeft_succ, ← h1]; omega
    · exact ⟨0, q, rfl, by simp [e]⟩

/-- Flipping bits of one byte adds a multiple of a power of x. -/
theorem messagePoly_flip {a : Active} (ds : List Byte) (i j : Nat) (hi : i < ds.length) :
    messagePoly a (flipBit ds i j) = messagePoly a ds ^^^ mulX (beta a (1#8 <<< j)) (8 * (ds.length - 1 - i)) ∧ (flipBit ds i j).length = ds.length := by
  refine ⟨?_, by simp [flipBit]⟩
  obtain ⟨xs, d, ys, rfl, rfl⟩ : ∃ xs d ys, ds = xs ++ d :: ys ∧ i = xs.length :=
    ⟨ds.take i, ds[i], ds.drop (i+1), by simp, by simp; omega⟩
  have : flipBit (xs ++ d :: ys) xs.length j = xs ++ (d ^^^ (1#8 <<< j)) :: ys := by
    rw [flipBit]; clear hi
    induction xs with
    | nil => rfl
    | cons x xs ih => simp [List.modify_succ_cons, ih]
  rw [this, messagePoly_append, messagePoly_append]
  rw [show (d ^^^ 1#8 <<< j) :: ys = [d ^^^ 1#8 <<< j] ++ ys from rfl, show d :: ys = [d] ++ ys from rfl, messagePoly_append, messagePoly_append, messagePoly_singleton, messagePoly_singleton, beta_xor, mulX_xor]
  have e : (xs ++ ([d] ++ ys)).length - 1 - xs.length = ys.length := by simp
  rw [e]
  simp only [List.length_append, List.length_singleton]
  ac_rfl

theorem beta_single_bit (a : Active) (j : Nat) (hj : j < 8) : ∃ e, beta a (1#8 <<< j) = mulX 1 e := by
  unfold beta
  split
  · exact ⟨7 - j, by revert hj; revert j; decide⟩
  · exact ⟨j, by revert hj; revert j; decide⟩

theorem getLsbD_gshl (v : Word) (s : Int) (i : Nat) (hi : i < 64) : (gshl v s).getLsbD i = (decide (s ≤ i) && v.getLsbD (i - s).toNat) := by
  unfold gshl
  split
  · next h =>
    have h1 : s ≤ i := by omega
    split
    · next h2 =>
      have : v.getLsbD (i - s).toNat = false := BitVec.getLsbD_of_ge _ _ (by omega)
      simp [this]
    · rw [BitVec.getLsbD_ushiftRight]
      have : ((i:Int) - s).toNat = (-s).toNat + i := by omega
      simp [h1, this]
  · next h =>
    split
    · next h2 => have : ¬ s ≤ i := by omega
                 simp [this]
    · rw [BitVec.getLsbD_shiftLeft]
      by_cases h1 : s ≤ i
      · have e1 : ¬ i < s.toNat := by omega
        have e2 : ((i:Int) - s).toNat = i - s.toNat := by omega
        simp [hi, h1, e1, e2]
      · have e1 : i < s.toNat := by omega
        simp [h1, e1]

theorem getLsbD_gshr (v : Word) (s : Int) (i : Nat) (hi : i < 64) : (gshr v s).getLsbD i = (decide (0 ≤ s + i) && v.getLsbD (s + i).toNat) := by
  rw [gshr, getLsbD_gshl _ _ _ hi]
  have e : ((i:Int) - -s) = s + i := by omega
  rw [e]
  congr 1
  rw [Bool.eq_iff_iff]; simp only [decide_eq_true_eq]; omega

theorem byteLane_packBytes (g : List Byte) (k : Nat) (hk : k < g.length) (hl : g.length ≤ 8) : byteLane (packBytes g) k = g[k] := by
  induction g generalizing k with
  | nil => simp at hk
  | cons d ds ih =>
    have hpk : ∀ (l : List Byte) (i : Nat), 8 * l.length ≤ i → (packBytes l).getLsbD i = false := by
      intro l
      induction l with
      | nil => intro i _; simp [packBytes]
      | cons x xs ih2 =>
        intro i hi
        simp only [List.length_cons] at hi
        rw [packBytes, BitVec.getLsbD_or, BitVec.getLsbD_setWidth, BitVec.getLsbD_shiftLeft, ih2 _ (by omega)]
        rw [BitVec.getLsbD_of_ge x i (by omega)]; simp
    apply BitVec.eq_of_getLsbD_eq; intro i hi
    rw [byteLane, BitVec.getLsbD_extractLsb', packBytes, BitVec.getLsbD_or, BitVec.getLsbD_setWidth, BitVec.getLsbD_shiftLeft]
    simp only [List.length_cons] at hk hl
    cases k with
    | zero =>
      have : i < 64 := by omega
      have h8 : i < 8 := hi
      simp [hi, this]
    | succ k =>
      have e := congrArg (fun z => BitVec.getLsbD z i) (ih k (by omega) (by omega))
      simp only [byteLane, BitVec.getLsbD_extractLsb'] at e
      rw [BitVec.getLsbD_of_ge d _ (by omega)]
      have e1 : ¬ 8 * (k+1) + i < 8 := by omega
      have e2 : 8 * (k+1) + i - 8 = 8 * k + i := by omega
      have e3 : 8 * (k+1) + i < 64 := by omega
      simp only [hi, decide_true, Bool.true_and] at e
      simp only [hi, e1, e2, e3, decide_true, decide_false, Bool.not_false, Bool.true_and, Bool.and_false, Bool.false_or, e, List.getElem_cons_succ]

/-- Up to eight bytes packed into a DATA word are read back in order. -/
theorem dataBytes_packBytes (g : List Byte) (hl : g.length ≤ 8) : dataBytes (packBytes g) g.length = g := by
  apply List.ext_getElem
  · simp [dataBytes]
  · intro k h1 h2
    simp only [dataBytes, List.getElem_map, List.getElem_range]
    exact byteLane_packBytes g k h2 hl

end Sys2Proof.Machine
end

