-- ==== Sys2Proof/Laws/PerInstr.lean ====
section
/-! SUPPORT. What holds of every command as syntax, one lemma per constructor. -/

namespace Sys2Proof.Laws.MapRow

/-- The opcode map has a row at the command's opcode whose match bits are that opcode, and the row builds the command from
its ARG and BYTE fields (R84). -/
def Statement (i : Instr) : Prop :=
  ∃ row, opcodeMap[i.opcode]? = some row ∧ row.opc = i.opcode ∧ row.matchBits = BitVec.ofNat 64 i.opcode ∧
    row.form i.arg i.byte = i

theorem nop : Statement .nop := ⟨_, rfl, rfl, rfl, rfl⟩

theorem config : Statement .config := ⟨_, rfl, rfl, rfl, rfl⟩

theorem init : Statement .init := ⟨_, rfl, rfl, rfl, rfl⟩

theorem zero : Statement .zero := ⟨_, rfl, rfl, rfl, rfl⟩

theorem process (len : Nat) : Statement (.process len) := ⟨_, rfl, rfl, rfl, rfl⟩

theorem finalize : Statement .finalize := ⟨_, rfl, rfl, rfl, rfl⟩

theorem isvalid : Statement .isvalid := ⟨_, rfl, rfl, rfl, rfl⟩

theorem combine : Statement .combine := ⟨_, rfl, rfl, rfl, rfl⟩

theorem zext : Statement .zext := ⟨_, rfl, rfl, rfl, rfl⟩

theorem clmul : Statement .clmul := ⟨_, rfl, rfl, rfl, rfl⟩

theorem reflect (b : Nat) : Statement (.reflect b) := ⟨_, rfl, rfl, rfl, rfl⟩

theorem lutrd (s b : Nat) : Statement (.lutrd s b) := ⟨_, rfl, rfl, rfl, rfl⟩

theorem foldrd (k : Nat) : Statement (.foldrd k) := ⟨_, rfl, rfl, rfl, rfl⟩

theorem resrd : Statement .resrd := ⟨_, rfl, rfl, rfl, rfl⟩

end Sys2Proof.Laws.MapRow
end

