-- ==== Sys2Proof/Laws/Run.lean ====
section
/-! SUPPORT. Runs of several steps, and what a host access leaves of a pending command's operands. -/

namespace Sys2Proof.Machine

/-- The first step of a run, on any machine. -/
theorem hostRun_succ {M : Host.Core} {s t : M.State} (h : M.step s = .next t) (k : Nat) : M.run (k + 1) s = M.run k t := by
  rw [Host.Core.run, h]

/-- A run in two parts, on any machine. -/
theorem hostRun_add {M : Host.Core} {s t : M.State} {j : Nat} (h : M.run j s = .next t) (k : Nat) :
    M.run (j + k) s = M.run k t := by
  induction j generalizing s with
  | zero => rw [Host.Core.run] at h; cases h; rw [Nat.zero_add]
  | succ j ih =>
    rw [show j + 1 + k = (j + k) + 1 by omega]
    rw [Host.Core.run] at h ⊢
    split at h
    · exact ih h
    · cases h
    · cases h

theorem run_zero (s : State) : core.run 0 s = .next s := rfl

/-- The first step of a run. -/
theorem run_succ {s t : State} (h : step s = .next t) (k : Nat) : core.run (k + 1) s = core.run k t :=
  hostRun_succ (M := core) h k

/-- A run in two parts. -/
theorem run_add {s t : State} {j : Nat} (h : core.run j s = .next t) (k : Nat) : core.run (j + k) s = core.run k t :=
  hostRun_add (M := core) h k

theorem State.sameOperands_refl (s : State) : s.SameOperands s := by simp [State.SameOperands]

theorem State.SameOperands.trans {s t u : State} (h : s.SameOperands t) (h' : t.SameOperands u) : s.SameOperands u := by
  simp only [State.SameOperands] at *; simp_all

/-- While a command is pending a host write changes only error bits and the bus's answer. -/
theorem hostWrite_busy {s : State} (h : s.pending.isSome = true) (size addr : Nat) (v : Word) :
    ∃ e r, hostWrite size addr v s = { s with errors := e, response := r } := by
  rcases hostWrite_cases size addr v s with h1 | h1 | ⟨r, -, -, h1⟩
  · exact ⟨_, _, h1⟩
  · exact ⟨_, _, h1⟩
  · rw [h1]
    rcases writeReg_cases s v r with ⟨-, -, h2⟩ | ⟨h2, h3⟩
    · rw [h2]; exact ⟨_, _, rfl⟩
    · rw [h3]
      have hb : s.busy = true := h
      rcases h2 with h2 | h2
      · rw [h2] at hb; cases hb
      · cases r <;> simp [Reg.droppedWhileBusy] at h2
        · exact ⟨s.errors, .done, rfl⟩
        · exact ⟨_, _, rfl⟩
        · exact ⟨s.errors, .done, rfl⟩

/-- A command always ends in a state with nothing pending and the same events to come. -/
theorem exec_ends (i : Instr) (s : State) :
    ∃ t, exec i s = .next t ∧ t.pending = none ∧ t.schedule = s.schedule ∧ t.params = s.params := by
  rcases exec_cases i s with ⟨e, -, h⟩ | ⟨-, act, v, c, r, h, -⟩
  · exact ⟨_, h, rfl, rfl, rfl⟩
  · exact ⟨_, h, rfl, rfl, rfl⟩

/-- What a command does depends neither on the mailbox nor on the schedule, the response or the draw counter. -/
theorem exec_frame_inputs (i : Instr) (s t : State) (p : Option Word) (sc : List Event) (r : Response) (d : Nat) (h : exec i s = .next t) :
    exec i { s with pending := p, schedule := sc, response := r, draws := d } = .next { t with schedule := sc, response := r, draws := d } := by
  rcases s with ⟨pa, cf, po, ir, xo, cr, oa, ob, da, co, re, va, er, ac, pe, sc', rs, dr⟩
  cases i <;> cases ac <;> simp only [exec, execNop, execConfig, execInit, execZero, execProcess, execFinalize, execIsvalid, execCombine, execZext, execClmul, execReflect, execLutrd, execFoldrd, execResrd, withActive, checkArg, raiseError, complete] at h ⊢ <;>
   (try split at h) <;> simp only [Host.Outcome.next.injEq] at h <;> subst h
  all_goals first
   | rfl
   | (rename_i hh; simp only [hh]; rfl)
   | (rename_i hh; simp only [stagedLegal] at hh ⊢; simp only [hh]; rfl)

/-- Reading STATUS answers the status word and changes nothing else. -/
theorem step_readStatus (s : State) (sc) (h : s.schedule = rd s.params.baseAddr .status :: sc) :
    step s = .next { s with schedule := sc, response := .data s.statusWord } := by
  have : step s = .next (hostRead 8 (s.params.baseAddr + Reg.offset .status) {s with schedule := sc}) := by
    simp [step, takeEvent, h, rd, perform]
  rw [this]
  have e := hostRead_reg {s with schedule := sc} .status
  simp only at e
  rw [e]; simp [Reg.openWhileBusy, State.respond, State.readReg]; rfl

/-- Polling STATUS any number of times changes only the response. -/
theorem run_polls (n : Nat) (s : State) (sc) (h : s.schedule = List.replicate n (rd s.params.baseAddr .status) ++ sc) :
    ∃ r, core.run n s = .next { s with schedule := sc, response := r } := by
  induction n generalizing s with
  | zero => simp at h; exact ⟨s.response, by rw [run_zero, ← h]⟩
  | succ n ih =>
    rw [List.replicate_succ, List.cons_append] at h
    have e := step_readStatus s _ h
    obtain ⟨r, hr⟩ := ih { s with schedule := List.replicate n (rd s.params.baseAddr .status) ++ sc, response := .data s.statusWord } rfl
    exact ⟨r, by rw [run_succ e, hr]⟩

/-- A host write to a register of an idle core stores it. -/
theorem step_writeReg (s : State) (r : Reg) (v : Word) (sc) (h : s.schedule = wr s.params.baseAddr r v :: sc) (hp : s.pending = none) :
    step s = .next { (({ s with schedule := sc } : State).storeReg v r) with response := .done } := by
  have : step s = .next (hostWrite 8 (s.params.baseAddr + r.offset) v {s with schedule := sc}) := by
    simp [step, takeEvent, h, wr, perform]
  rw [this]
  have e := hostWrite_reg {s with schedule := sc} r v
  simp only at e
  rw [e]; simp [State.writeReg, State.busy, hp]; rfl

/-- EXEC takes its polls and three more steps: the CMD write, the core's turn and the last poll. -/
@[simp] theorem execEvents_length (base polls : Nat) (i : Instr) : (execEvents base polls i).length = polls + 3 := by
  simp [execEvents, waitEvents]

/-- One group of FEED takes one step more than its EXEC: the DATA write. -/
@[simp] theorem feedGroup_length (base polls : Nat) (g : List Byte) : (feedGroup base polls g).length = polls + 4 := by
  simp [feedGroup]

end Sys2Proof.Machine
end

