-- ==== Sys2Proof/Tests/Slice0.lean ====
section
/-! SUPPORT. Tests. Expected values come from spec/95_test_vectors.md or from the rule a docstring names; the witnesses show
that the hypotheses of each statement can be met together, at the ends of their ranges. -/

namespace Sys2Proof.Tests

open Sys2Proof Sys2Proof.Machine

/-! ### Well-formedness: one ill-formed term for each check -/

theorem test_wellFormed_process : (Instr.process 128).wellFormed = false ∧ (Instr.process 127).wellFormed = true := by decide
theorem test_wellFormed_reflect : (Instr.reflect 128).wellFormed = false ∧ (Instr.reflect 127).wellFormed = true := by decide
theorem test_wellFormed_lutrd_slice : (Instr.lutrd 128 0).wellFormed = false ∧ (Instr.lutrd 127 0).wellFormed = true := by decide
theorem test_wellFormed_lutrd_byte : (Instr.lutrd 0 256).wellFormed = false ∧ (Instr.lutrd 0 255).wellFormed = true := by decide
theorem test_wellFormed_foldrd : (Instr.foldrd 128).wellFormed = false ∧ (Instr.foldrd 127).wellFormed = true := by decide

/-! ### Decoding: words written out bit by bit from R81 (OPC in 7:0, ARG in 14:8, bit 15 = 0, BYTE in 23:16) and R84 -/

theorem test_decode_nop : decode 0b00000000_0_0000000_00000000 = .ok .nop := by decide
theorem test_decode_config : decode 0b00000000_0_0000000_00000001 = .ok .config := by decide
theorem test_decode_init : decode 0b00000000_0_0000000_00000010 = .ok .init := by decide
theorem test_decode_zero : decode 0b00000000_0_0000000_00000011 = .ok .zero := by decide
theorem test_decode_process : decode 0b00000000_0_0001000_00000100 = .ok (.process 8) := by decide
theorem test_decode_process_top : decode 0b00000000_0_1000001_00000100 = .ok (.process 65) := by decide
theorem test_decode_finalize : decode 0b00000000_0_0000000_00000101 = .ok .finalize := by decide
theorem test_decode_isvalid : decode 0b00000000_0_0000000_00000110 = .ok .isvalid := by decide
theorem test_decode_combine : decode 0b00000000_0_0000000_00000111 = .ok .combine := by decide
theorem test_decode_zext : decode 0b00000000_0_0000000_00001000 = .ok .zext := by decide
theorem test_decode_clmul : decode 0b00000000_0_0000000_00001001 = .ok .clmul := by decide
theorem test_decode_reflect : decode 0b00000000_0_0100000_00001010 = .ok (.reflect 32) := by decide
theorem test_decode_lutrd : decode 0b10000001_0_0000111_00001011 = .ok (.lutrd 7 129) := by decide
theorem test_decode_foldrd : decode 0b00000000_0_0111111_00001100 = .ok (.foldrd 63) := by decide
theorem test_decode_resrd : decode 0b00000000_0_0000000_00001101 = .ok .resrd := by decide

/-- R86: a reserved opcode. -/
theorem test_decode_reservedOpcode :
    decode 0x0E = .error .reservedOpcode ∧ decode 0xFF = .error .reservedOpcode := by decide

/-- R83: bit 15, a bit above BYTE, BYTE outside LUTRD, ARG of a command without one. -/
theorem test_decode_reservedBit :
    decode 0x8804 = .error .reservedBitSet ∧ decode 0x100000B = .error .reservedBitSet ∧
      decode 0x10804 = .error .reservedBitSet ∧ decode 0x100 = .error .reservedBitSet := by decide

/-- The examples of R89. -/
theorem test_encode_examples :
    encode (.process 8) = 0x804 ∧ encode (.lutrd 7 1) = 0x1070B ∧ encode (.reflect 32) = 0x200A := by decide

theorem test_decodeTableWord :
    decodeTableWord 64 0x1070B = some (.lutrd 7 1) ∧ decodeTableWord 64 0x0E = none := by decide

/-! ### One step of each command -/

/-- Section 0 of 95_test_vectors.md. -/
def crc32c : Active := ⟨32, 0x1EDC6F41, 0xFFFFFFFF, 0xFFFFFFFF, true, true⟩
def crc64xz : Active := ⟨64, 0x42F0E1EBA9EA3693, 0xFFFFFFFFFFFFFFFF, 0xFFFFFFFFFFFFFFFF, true, true⟩
def crc3gsm : Active := ⟨3, 0x3, 0, 0x7, false, false⟩
def crc5usb : Active := ⟨5, 0x05, 0x1F, 0x1F, true, true⟩
def crc12umts : Active := ⟨12, 0x80F, 0, 0, false, true⟩
def crc16xmodem : Active := ⟨16, 0x1021, 0, 0, false, false⟩
def crc1parity : Active := ⟨1, 0x1, 0, 0, false, false⟩

/-- The reset state with an active configuration. -/
def configured (a : Active) : State := { State.reset with active := some a }

/-- The state answers a next state that satisfies `p`. -/
def answers (o : Host.Outcome State Fault Refusal) (p : State → Bool) : Bool :=
  match o with
  | .next t => p t
  | .fault _ => false
  | .refused _ => false

/-- The step that runs the command word `w` next. -/
def stepOf (s : State) (w : Nat) (p : State → Bool) : Bool := answers (step (s.withFetchWord 64 w)) p

theorem test_nop_clears_busy : stepOf State.reset 0x0 (fun t => decide (t = State.reset)) = true := by decide

/-- P4 of 95_test_vectors.md: an illegal word. -/
theorem test_nop_bit8_is_illegal :
    stepOf State.reset 0x100 (fun t => decide (t.statusWord = 0x100)) = true := by decide

theorem test_config_crc32c :
    stepOf { State.reset with cfg := 0x320, poly := 0x1EDC6F41, initReg := 0xFFFFFFFF, xorout := 0xFFFFFFFF } 0x1
      (fun t => decide (t.active = some crc32c) && decide (t.crcState = 0xFFFFFFFF) && decide (t.statusWord = 0x2)) = true := by
  decide +kernel

theorem test_config_poly_too_wide :
    stepOf { State.reset with cfg := 0x8, poly := 0x107 } 0x1
      (fun t => decide (t.statusWord = 0x800) && decide (t.active = none)) = true := by decide

/-- R155: an I of 5 with W = 3 and RIN = 0 gives 0xA0. -/
theorem test_init_left_aligned :
    stepOf (configured ⟨3, 0x3, 0x5, 0x7, false, false⟩) 0x2 (fun t => decide (t.crcState = 0xA0)) = true := by decide +kernel

theorem test_init_without_configuration :
    stepOf State.reset 0x2 (fun t => decide (t.statusWord = 0x200) && decide (t.crcState = 0)) = true := by decide

theorem test_zero : stepOf { State.reset with crcState := 0xFFFFFFFFFFFFFFFF } 0x3
    (fun t => decide (t.crcState = 0) && decide (t.statusWord = 0)) = true := by decide

theorem test_process_eight_bytes :
    stepOf { configured crc32c with crcState := 0xFFFFFFFF, data := 0x3837363534333231 } 0x804
      (fun t => decide (t.crcState = 0x9F787F65)) = true := by decide +kernel

theorem test_process_no_bytes_clears_garbage :
    stepOf { configured crc3gsm with crcState := 0xFFFFFFFFFFFFFF7F } 0x4
      (fun t => decide (t.crcState = 0x60)) = true := by decide +kernel

/-- RIN = 0 and ROUT = 1. -/
theorem test_finalize_mixed_orientation :
    stepOf { configured crc12umts with crcState := 0xF5B } 0x5
      (fun t => decide (t.result = 0xDAF) && decide (t.crcState = 0xF5B)) = true := by decide +kernel

theorem test_finalize_ignores_garbage :
    stepOf { configured crc3gsm with crcState := 0x7F } 0x5 (fun t => decide (t.result = 0x4)) = true := by decide +kernel

theorem test_isvalid_true :
    stepOf { configured crc32c with crcState := 0xFFFFFFFFB798B438 } 0x6
      (fun t => decide (t.statusWord = 0x6) && decide (t.result = 1)) = true := by decide +kernel

theorem test_isvalid_false :
    stepOf { configured crc3gsm with crcState := 0x60, valid := true } 0x6
      (fun t => decide (t.statusWord = 0x2) && decide (t.result = 0)) = true := by decide +kernel

theorem test_combine :
    stepOf { configured crc32c with crcState := 0xDA3E7E91, opb := 0xC6C713ED } 0x7
      (fun t => decide (t.crcState = 0x1CF96D7C)) = true := by decide +kernel

theorem test_combine_ignores_garbage :
    stepOf { configured crc32c with crcState := 0xFFFFFFFF00000001, opb := 0xFFFFFFFF00000001 } 0x7
      (fun t => decide (t.crcState = 0)) = true := by decide +kernel

theorem test_zext_five :
    stepOf { configured crc32c with crcState := 0x09C50B11, count := 5 } 0x8
      (fun t => decide (t.crcState = 0xDA3E7E91)) = true := by decide +kernel

theorem test_zext_greatest_count :
    stepOf { configured crc64xz with crcState := 0xFFFFFFFFFFFFFFFF, count := 0xFFFFFFFFFFFFFFFF } 0x8
      (fun t => decide (t.crcState = 0x3877F5F3EC2D670E)) = true := by decide +kernel

theorem test_clmul_nonreflected :
    stepOf { configured crc3gsm with opa := 0x80, opb := 0x40 } 0x9
      (fun t => decide (t.result = 0x60)) = true := by decide +kernel

theorem test_clmul_reflected :
    stepOf { configured crc32c with opa := 0x00000001, opb := 0x40000000 } 0x9
      (fun t => decide (t.result = 0x82F63B78)) = true := by decide +kernel

theorem test_reflect_sixty_four :
    stepOf { State.reset with opa := 0x0123456789ABCDEF } 0x400A
      (fun t => decide (t.result = 0xF7B3D591E6A2C480)) = true := by decide +kernel

theorem test_reflect_sixty_five_is_out_of_range :
    stepOf { State.reset with opa := 0x1, result := 0x7 } 0x410A
      (fun t => decide (t.statusWord = 0x400) && decide (t.result = 0x7)) = true := by decide

theorem test_lutrd_first_table :
    stepOf (configured crc32c) 0x1000B (fun t => decide (t.result = 0x493C7D27)) = true := by decide +kernel

theorem test_lutrd_slice_out_of_range :
    stepOf (configured crc32c) 0x80B (fun t => decide (t.statusWord = 0x402)) = true := by decide

theorem test_foldrd_last :
    stepOf (configured crc64xz) 0x3F0C (fun t => decide (t.result = 0x7BCD738FEF5729F1)) = true := by decide +kernel

theorem test_foldrd_out_of_range :
    stepOf (configured crc32c) 0x400C (fun t => decide (t.statusWord = 0x402)) = true := by decide

theorem test_resrd_reflected :
    stepOf (configured crc5usb) 0xD (fun t => decide (t.result = 0x06)) = true := by decide +kernel

theorem test_resrd_left_aligned :
    stepOf (configured crc3gsm) 0xD (fun t => decide (t.result = 0x40)) = true := by decide +kernel

/-! ### Priority of the checks (R227) and host accesses -/

/-- PROCESS 9 before any CONFIG sets ERR_NOCFG; 0x8804 sets ERR_CMD (the examples of R227). -/
theorem test_priority :
    stepOf State.reset 0x904 (fun t => decide (t.statusWord = 0x200)) = true ∧
      stepOf State.reset 0x8804 (fun t => decide (t.statusWord = 0x100)) = true := by decide

/-- R36 with N_SLICE = 8. -/
theorem test_read_cap : (hostRead 8 0x60 State.reset).response = .data 0x14008 := by decide

/-- R22: a write to CFG stores v AND 0x37F. -/
theorem test_write_cfg : (hostWrite 8 0x00 0xFFFFFFFFFFFFFFFF State.reset).cfg = 0x37F := by decide

/-- R224: a CMD write while a command is pending is dropped. -/
theorem test_write_while_busy :
    let s : State := { State.reset with pending := some 0x3 }
    (hostWrite 8 0x58 0x0 s).pending = some 0x3 ∧ (hostWrite 8 0x58 0x0 s).statusWord = 0x1001 := by decide

/-- R38: a write to STATUS clears the error bits it names. -/
theorem test_write_status :
    (hostWrite 8 0x50 0x0900 { State.reset with errors := ⟨true, true, true, true, true⟩ }).statusWord = 0x1600 := by decide

/-- R62: size and alignment. -/
theorem test_bus_error :
    (hostRead 4 0x20 State.reset).response = .busError ∧ (hostWrite 8 0x24 1 State.reset) = State.reset.respond .busError := by
  decide

/-- R102's worked examples. -/
theorem test_generalised_shifts : gshr 0x1234 (-4) = 0x12340 ∧ gshl 0x1234 64 = 0 ∧ gshl 0xFF (-4) = 0xF := by decide

/-- R106 and R121's worked examples, and R122's (N = 2). -/
theorem test_worked_examples :
    clmul 0x3 0x3 = 0x5 ∧ tableEntry crc32c 8 7 0x80 = 0x82F63B78 ∧ groupStep crc16xmodem 2 0 [0x31, 0x32] = 0x20B5 := by
  decide +kernel

/-! ### Witnesses: the hypotheses of each statement met together, at the ends of their ranges -/

/-- The narrowest and the widest configuration. -/
def narrow : Active := ⟨1, 0, 1, 1, false, true⟩
def wide : Active := ⟨64, 0xFFFFFFFFFFFFFFFF, 1, 0, true, true⟩

theorem narrow_legal : narrow.Legal := by decide
theorem wide_legal : wide.Legal := by decide

/-- A state whose registers are all in use, with all error bits set. -/
def busyCore (a : Active) : State :=
  { State.reset with
    active := some a, crcState := 0xF5, opa := 0x1F6, opb := 0x1F7, data := 0x3837363534333231, count := 3, valid := true
    errors := ⟨true, true, true, true, true⟩ }

theorem busyCore_inv (a : Active) (h : a.Legal) : (busyCore a).Inv :=
  ⟨(by decide : Config.referenceParams.Legal), by simp [busyCore, State.reset, State.resetOf], fun _ hb => Option.some.inj hb ▸ h, fun _ => rfl⟩

theorem witness_DecodeOfEncode :
    (Instr.lutrd 127 255).WellFormed ∧ (Instr.process 127).WellFormed ∧ (Instr.reflect 0).WellFormed ∧
      (Instr.foldrd 127).WellFormed ∧ Instr.resrd.WellFormed := by decide

theorem witness_EveryWordIsOneRow :
    decode 0x804 = .ok (.process 8) ∧
      ∃ row, opcodeMap[4]? = some row ∧ (0x804 : Word) &&& row.mask = row.matchBits := ⟨by decide, _, rfl, by decide⟩

/-- One word for each of the five ways to be reserved, and one for none. -/
theorem witness_IllegalWords :
    0x0D < (0x0E : Word).toNat % 2 ^ 8 ∧ 2 ^ 24 ≤ (0x1000000 : Word).toNat ∧ (0x8004 : Word).getLsbD 15 = true ∧
      (0x10804 : Word).toNat / 2 ^ 16 % 2 ^ 8 ≠ 0 ∧ (0x100 : Word).toNat / 2 ^ 8 % 2 ^ 7 ≠ 0 ∧
      decode 0xFF7F0B = .ok (.lutrd 127 255) ∧ decode 0xFF000B = .ok (.lutrd 0 255) := by decide

theorem witness_StepRunsTheDecodedCommand :
    ({ State.reset with pending := some 0x0, schedule := [.core, .reset] } : State).CoreTurn [.reset] ∧
      ({ State.reset with pending := some 0x0 } : State).CoreTurn [] ∧ decode 0x0 = .ok .nop :=
  ⟨.inl rfl, .inr ⟨rfl, rfl⟩, by decide⟩

theorem witness_StepPerformsTheNextEvent :
    ({ State.reset with schedule := [.read 8 0x60] } : State).schedule = .read 8 0x60 :: [] ∧
      ({ State.reset with schedule := [.write 8 0x58 0] } : State).schedule = .write 8 0x58 0 :: [] ∧
      ({ State.reset with schedule := [.reset] } : State).schedule = .reset :: [] ∧
      State.reset.CoreTurn [] ∧ State.reset.pending = none :=
  ⟨rfl, rfl, rfl, .inr ⟨rfl, rfl⟩, rfl⟩

theorem witness_PendingCommand :
    ({ State.reset with pending := some 0xE, schedule := [.read 8 0x50] } : State).pending.isSome = true := rfl

theorem witness_AccessesKeepOperands :
    let accesses : List Event := [.read 8 0x20, .write 8 0x20 1, .write 4 0x20 1]
    let s : State := { busyCore crc32c with pending := some 0x804, schedule := accesses ++ [.core] }
    s.pending.isSome = true ∧ (∀ e ∈ accesses, e.isAccess = true) ∧ s.schedule = accesses ++ [.core] := by decide

theorem witness_Exec :
    let s : State := { busyCore crc32c with schedule := execEvents 0 2 (.process 8) ++ [] }
    (Instr.process 8).WellFormed ∧ s.pending = none ∧
      s.schedule = execEvents s.params.baseAddr 2 (.process 8) ++ [] := by decide

/-- Nine bytes, so two groups, the second with one poll more than the first; and no byte at all. -/
theorem witness_Feed :
    let ds : List Byte := [1, 2, 3, 4, 5, 6, 7, 8, 9]
    let s : State := { busyCore crc32c with schedule := feedEvents 0 (fun k => k) ds ++ [] }
    s.Inv ∧ s.active = some crc32c ∧ s.pending = none ∧ s.schedule = feedEvents s.params.baseAddr (fun k => k) ds ++ [] ∧
      (feedEvents 0 (fun k => k) ds).length = 9 ∧ feedEvents 0 (fun k => k) [] = [] :=
  ⟨busyCore_inv crc32c (by decide), rfl, rfl, rfl, by decide, by decide⟩

theorem witness_Setup :
    let s : State := { busyCore crc32c with schedule := setupEvents 0 0 wide ++ [] }
    wide.Legal ∧ narrow.Legal ∧ s.pending = none ∧ s.schedule = setupEvents s.params.baseAddr 0 wide ++ [] :=
  ⟨wide_legal, narrow_legal, rfl, rfl⟩

theorem witness_Compute :
    let s : State := { busyCore wide with schedule := computeEvents 0 (fun k => k) 3 [0x31] ++ [.reset] }
    s.Inv ∧ s.active = some wide ∧ s.pending = none ∧ s.schedule = computeEvents s.params.baseAddr (fun k => k) 3 [0x31] ++ [.reset] :=
  ⟨busyCore_inv wide wide_legal, rfl, rfl, rfl⟩

theorem witness_StepKeepsInvariant :
    (busyCore crc32c).Inv ∧ ∃ t, step (busyCore crc32c) = .next t := ⟨busyCore_inv crc32c (by decide), _, rfl⟩

theorem witness_ResetSatisfiesInvariant : (⟨1, 0⟩ : Params).Legal ∧ (⟨128, 0x1000⟩ : Params).Legal := by decide

theorem witness_ResetSets :
    ({ busyCore crc32c with pending := some 0x804, schedule := [.reset, .core] } : State).schedule = .reset :: [.core] := rfl

/-- Each clause of the statement about written registers has a command that does write. -/
theorem witness_CommandsWrite :
    answers (exec .config { busyCore narrow with cfg := 0x5 }) (fun t => decide (t.active ≠ (busyCore narrow).active)) = true ∧
      answers (exec .isvalid (busyCore crc32c)) (fun t => decide (t.valid ≠ (busyCore crc32c).valid)) = true ∧
      answers (exec (.process 1) (busyCore crc32c)) (fun t => decide (t.crcState ≠ (busyCore crc32c).crcState)) = true ∧
      answers (exec (.foldrd 63) (busyCore crc32c)) (fun t => decide (t.result ≠ (busyCore crc32c).result)) = true := by
  decide +kernel

theorem witness_ActiveChanges :
    answers (step { busyCore narrow with cfg := 0x5, pending := some 0x1 }) (fun t => decide (t.active ≠ some narrow)) = true ∧
      answers (step { busyCore narrow with schedule := [.reset] }) (fun t => decide (t.active ≠ some narrow)) = true := by
  decide +kernel

theorem witness_Sticky :
    answers (step { busyCore narrow with schedule := [.write 8 0x50 0x1000] }) (fun t => !t.errors.get .busy) = true ∧
      answers (step { busyCore narrow with schedule := [.reset] }) (fun t => !t.errors.get .cmd) = true ∧
      (busyCore narrow).errors.get .busy = true ∧ (busyCore narrow).errors.get .cmd = true := by decide

theorem witness_ErrorBitsDoNotBlock :
    (∃ t, exec (.process 9) (busyCore crc32c) = .next t) ∧ ErrorBits.none.get .arg = false ∧
      (ErrorBits.set .none .arg).get .arg = true := ⟨⟨_, rfl⟩, by decide⟩

theorem witness_Staging : Instr.zero ≠ .config ∧ ∃ t, exec .zero (busyCore narrow) = .next t := ⟨by decide, _, rfl⟩

/-- States that differ only outside the significant field, for a left-aligned and for a reflected configuration. -/
theorem witness_BitsOutsideTheField :
    crc3gsm.Legal ∧ sig crc3gsm 0x7F = sig crc3gsm 0x60 ∧ (0x7F : Word) ≠ 0x60 ∧
      sig crc32c 0xFFFFFFFF00000001 = sig crc32c 1 ∧ ∃ t, exec .combine (busyCore crc3gsm) = .next t :=
  ⟨by decide, by decide, by decide, by decide, _, rfl⟩

theorem witness_Canonical :
    (busyCore narrow).Inv ∧ argInRange 8 (.process 8) = true ∧ argInRange 8 .zext = true ∧
      stagedLegal { State.reset with cfg := 0x1, poly := 0x1 } = true ∧
      stagedLegal { State.reset with cfg := 0x40, poly := 0xFFFFFFFFFFFFFFFF } = true :=
  ⟨busyCore_inv narrow narrow_legal, by decide⟩

theorem witness_IllegalWord :
    let s : State := { State.reset with pending := some 0x1000000000000004 }
    s.CoreTurn [] ∧ 0x0D < opcField 0x0E ∧
      ∃ row ∈ opcodeMap, row.opc = opcField 0x1000000000000004 ∧ (0x1000000000000004 : Word) &&& row.mask ≠ row.matchBits :=
  ⟨.inr ⟨rfl, rfl⟩, by decide, opcodeMap[4], by simp [opcodeMap], by decide, by decide⟩

theorem witness_ChecksRunInOrder :
    needsActive (.process 9) = true ∧ State.reset.active = none ∧ argInRange 8 (.process 9) = false ∧
      argInRange 8 (.process 8) = true ∧ argInRange 8 (.lutrd 8 0) = false ∧ argInRange 8 (.lutrd 7 255) = true ∧
      argInRange 8 (.foldrd 64) = false ∧ argInRange 8 (.foldrd 63) = true ∧ argInRange 8 (.reflect 0) = false ∧
      argInRange 8 (.reflect 1) = true ∧ argInRange 8 (.reflect 64) = true ∧ argInRange 8 (.reflect 65) = false ∧
      (busyCore narrow).active.isSome = true := by decide

/-- W = 0, W = 65, a bit at position W; and W = 64, where no bit is too high. -/
theorem witness_ConfigRejects :
    cfgWidth 0 = 0 ∧ 64 < cfgWidth 0x41 ∧ cfgWidth 0x08 ≤ 8 ∧ (0x100 : Word).getLsbD 8 = true ∧ cfgWidth 0x340 = 64 ∧
      Instr.zero ≠ .config ∧ ∃ t, exec .zero State.reset = .next t := ⟨by decide, by decide, by decide, by decide, by decide, by decide, _, rfl⟩

/-- INIT on an unconfigured core whose ERR_NOCFG is already set fails; PROCESS 9 and an illegal word fail; NOP passes. -/
theorem witness_FailedCommand :
    ({ State.reset with pending := some 0x2, errors := { State.reset.errors with noCfg := true } } : State).CoreTurn [] ∧
      (∃ t, step { State.reset with pending := some 0x2, errors := { State.reset.errors with noCfg := true } } = .next t) ∧
      decode 0x2 = .ok .init ∧ ¬ State.reset.ChecksPass .init ∧ decode 0x904 = .ok (.process 9) ∧
      ¬ (busyCore crc32c).ChecksPass (.process 9) ∧ (∃ e, decode 0xE = .error e) ∧
      decode 0x0 = .ok .nop ∧ State.reset.ChecksPass .nop :=
  ⟨.inr ⟨rfl, rfl⟩, ⟨_, rfl⟩, by decide, by decide, by decide, by decide, ⟨_, rfl⟩, by decide, by decide⟩

theorem witness_StatusWord :
    (busyCore narrow).statusWord.getLsbD 7 = false ∧ (busyCore narrow).statusWord.getLsbD 12 = true ∧
      (busyCore narrow).statusWord.getLsbD 13 = false ∧ (busyCore narrow).statusWord.getLsbD 3 = false := by decide

/-- Both ends of the reserved offsets; an idle and a busy core. -/
theorem witness_Reads :
    State.reset.params.Legal ∧ State.reset.pending = none ∧
      ({ State.reset with pending := some 0 } : State).pending.isSome = true ∧
      (hostRead 8 0x68 State.reset).response = .data 0 ∧ (hostRead 8 0xF8 State.reset).response = .data 0 ∧
      (hostRead 8 0x100 State.reset).response = .busError := by decide

theorem witness_UndefinedAccess : ((4 : Nat) ≠ 8 ∨ (0x20 : Nat) % 8 ≠ 0) ∧ ((8 : Nat) ≠ 8 ∨ (0x24 : Nat) % 8 ≠ 0) := by decide

theorem witness_Writes :
    (busyCore narrow).pending = none ∧ (0x68 ≤ 0x68 ∧ 0x68 ≤ 0xF8 ∧ 0x68 % 8 = 0) ∧ (0x68 ≤ 0xF8 ∧ 0xF8 % 8 = 0) ∧
      ({ busyCore narrow with pending := some 0x804 } : State).pending.isSome = true ∧ (0x60 ≤ 0x60 ∧ 0x60 ≤ 0xF8) := by decide

/-- W = 1 and W = 64, the ends of CONFIG's range. -/
theorem witness_Config :
    cfgWidth 0x001 = 1 ∧ (1 : Word).toNat < 2 ^ cfgWidth 0x001 ∧ cfgWidth 0x340 = 64 ∧
      (0xFFFFFFFFFFFFFFFF : Word).toNat < 2 ^ cfgWidth 0x340 := by decide

/-- The commands that need a legal configuration, their operands at the ends of their ranges. -/
theorem witness_Commands :
    (busyCore narrow).active = some narrow ∧ narrow.Legal ∧ (busyCore narrow).Inv ∧ (0 ≤ 8 ∧ 8 ≤ 8) ∧
      (0 < (busyCore narrow).params.nSlice ∧ 7 < (busyCore narrow).params.nSlice) ∧ 255 < 256 ∧ (0 ≤ 63 ∧ 63 ≤ 63) ∧
      (1 ≤ 1 ∧ 1 ≤ 64 ∧ 1 ≤ 64 ∧ 64 ≤ 64) :=
  ⟨rfl, narrow_legal, busyCore_inv narrow narrow_legal, by decide, by decide, by decide, by decide, by decide⟩

/-- Both answers of ISVALID. -/
theorem witness_Isvalid :
    sig crc32c 0xFFFFFFFFB798B438 = residueSerial crc32c ∧ sig crc32c 0 ≠ residueSerial crc32c := by decide +kernel

theorem witness_Reflection :
    ((0 : Word).toNat < 2 ^ 1 ∧ (1 : Word).toNat < 2 ^ 1) ∧ (0xFFFFFFFFFFFFFFFF : Word).toNat < 2 ^ 64 := by decide

/-- A quotient and a remainder: x^3 = 1 · G + (x + 1) for CRC-3/GSM. -/
theorem witness_Remainder : crc3gsm.Legal ∧ 0x3 < 2 ^ crc3gsm.w ∧ 8 = clmul 1 (gen crc3gsm) ^^^ 0x3 := by decide +kernel

theorem witness_Products : crc1parity.Legal ∧ 0 < 2 ^ crc1parity.w ∧ 1 < 2 ^ crc1parity.w := by decide

theorem witness_Kernel :
    crc12umts.Legal ∧ (1 : Nat) ≤ 1 ∧ (busyCore crc12umts).Inv ∧ ∃ t, exec (.process 8) (busyCore crc12umts) = .next t :=
  ⟨by decide, by decide, busyCore_inv _ (by decide), _, rfl⟩

theorem witness_CombineLaw : crc16xmodem.Legal ∧ ([] : List Byte).length < 2 ^ 64 ∧ ([0x33, 0x34] : List Byte).length < 2 ^ 64 := by
  decide

/-- Two spans and the reverse order of the XORs. -/
theorem witness_Chunked :
    ([[0x32, 0x33]] : List (List Byte)).flatten.length < 2 ^ 64 ∧
      (shiftedSpans crc32c (initVal crc32c) [[0x31], [0x32, 0x33]]).reverse.Perm
        (shiftedSpans crc32c (initVal crc32c) [[0x31], [0x32, 0x33]]) :=
  ⟨by decide, List.reverse_perm _⟩

/-- A width that is a multiple of 8 with X ≠ 0, and a width that is not with X = 0. -/
theorem witness_MessageWithItsChecksum :
    crc32c.Legal ∧ crc32c.rin = crc32c.rout ∧ crc32c.w % 8 = 0 ∧ crc32c.x ≠ 0 ∧
      crc1parity.Legal ∧ crc1parity.rin = crc1parity.rout ∧ crc1parity.w % 8 ≠ 0 ∧ crc1parity.x = 0 := by decide

theorem witness_SingleBitErrors :
    crc32c.p ≠ 0 ∧ narrow.p = 0 ∧ 0 < ([0xFF] : List Byte).length ∧ 7 < 8 ∧
      (serialize crc32c (fin crc32c (proc crc32c (initVal crc32c) [0x31]))).length = 4 := by decide +kernel

end Sys2Proof.Tests
end

section
/-! The machine invariant is kept by every step, and every step answers: the family of the scope (00_scope.md). -/

namespace Sys2Proof.Machine

/-! ### The staged parametrisation -/

/-- CONFIG's test on a register: no bit at or above position `n` means the value is below 2^n. -/
theorem and_not_mask_eq_zero_iff {n : Nat} (hn : n ≤ 64) (v : Word) : v &&& ~~~mask n = 0 ↔ v.toNat < 2 ^ n := by
  constructor
  · intro h
    apply Nat.lt_pow_two_of_testBit
    intro i hi
    have hbit : (v &&& ~~~mask n).getLsbD i = false := by rw [h]; exact BitVec.getLsbD_zero
    rw [BitVec.testBit_toNat]
    by_cases h64 : i < 64
    · simpa only [BitVec.getLsbD_and, BitVec.getLsbD_not, getLsbD_mask hn, h64, Nat.not_lt.mpr hi, decide_true,
        decide_false, Bool.not_false, Bool.and_true] using hbit
    · exact BitVec.getLsbD_of_ge v i (Nat.le_of_not_lt h64)
  · intro h
    apply BitVec.eq_of_getLsbD_eq
    intro i _
    by_cases hi : i < n
    · simp [getLsbD_mask hn, hi]
    · have hbit : v.getLsbD i = false := testBit_eq_false_of_lt h (Nat.le_of_not_lt hi)
      simp [hbit]

/-- CONFIG's two tests (R152, R223) are R40's bounds on the record it would take. -/
theorem stagedLegal_iff (s : State) : stagedLegal s = true ↔ (stagedActive s).Legal := by
  simp only [stagedLegal, Bool.and_eq_true, decide_eq_true_eq, Active.Legal, stagedActive, and_assoc]
  refine and_congr_right fun _ => and_congr_right fun hw => ?_
  rw [and_not_mask_eq_zero_iff hw, BitVec.toNat_or, BitVec.toNat_or]
  constructor
  · intro h
    exact ⟨(Nat.left_le_or.trans Nat.left_le_or).trans_lt h, (Nat.right_le_or.trans Nat.left_le_or).trans_lt h,
      Nat.right_le_or.trans_lt h⟩
  · rintro ⟨hp, hi, hx⟩
    exact Nat.or_lt_two_pow (Nat.or_lt_two_pow hp hi) hx

/-! ### The invariant, operation by operation -/

/-- The invariant reads four fields: an operation that keeps them keeps it. -/
theorem State.Inv.of_eq {s t : State} (h : s.Inv) (hp : t.params = s.params) (hc : t.cfg = s.cfg)
    (ha : t.active = s.active) (hv : t.valid = s.valid) : t.Inv := by
  simpa only [State.Inv, hp, hc, ha, hv] using h

theorem applyReset_inv {s : State} (h : s.Inv) : s.applyReset.Inv :=
  ⟨h.1, by simp, by simp, by simp⟩

theorem hostRead_inv {s : State} (h : s.Inv) (size addr : Nat) : (hostRead size addr s).Inv := by
  obtain ⟨r, d, hr⟩ := hostRead_cases size addr s
  rw [hr]
  exact h.of_eq rfl rfl rfl rfl

/-- A write to CFG stores no bit outside the writable ones (R22); a write to another register leaves the invariant's fields alone. -/
theorem storeReg_inv {s : State} (h : s.Inv) (v : Word) (r : Reg) : (s.storeReg v r).Inv := by
  cases r
  case cfg =>
    obtain ⟨hp, -, ha, hv⟩ := h
    have hcfg : v &&& cfgWritable &&& ~~~cfgWritable = 0 := by rw [BitVec.and_assoc, BitVec.and_not_self]; simp
    exact ⟨hp, hcfg, ha, hv⟩
  all_goals exact h.of_eq rfl rfl rfl rfl

theorem writeReg_inv {s : State} (h : s.Inv) (v : Word) (r : Reg) : (s.writeReg v r).Inv := by
  rcases writeReg_cases s v r with ⟨-, -, hw⟩ | ⟨-, hw⟩ <;> rw [hw]
  · exact h.of_eq rfl rfl rfl rfl
  · exact storeReg_inv h v r

theorem hostWrite_inv {s : State} (h : s.Inv) (size addr : Nat) (v : Word) : (hostWrite size addr v s).Inv := by
  rcases hostWrite_cases size addr v s with hw | hw | ⟨r, -, -, hw⟩ <;> rw [hw]
  · exact h.of_eq rfl rfl rfl rfl
  · exact h.of_eq rfl rfl rfl rfl
  · exact (writeReg_inv h v r).of_eq rfl rfl rfl rfl

/-- Only CONFIG changes ACTIVE, and it has tested the new record; only ISVALID sets VALID, and it needs ACTIVE. -/
theorem exec_inv {i : Instr} {s t : State} (h : s.Inv) (ht : exec i s = .next t) : t.Inv := by
  rcases exec_cases i s with ⟨e, -, he⟩ | ⟨⟨hneeds, -, hstaged⟩, act, v, c, r, he, hkeep, hconfig, hvalid, -⟩
  · obtain rfl : s.failed e = t := Host.Outcome.next.inj (he.symm.trans ht)
    exact h.of_eq rfl rfl rfl rfl
  · obtain rfl : s.done act v c r = t := Host.Outcome.next.inj (he.symm.trans ht)
    obtain ⟨hp, hc, hlegal, hvalidActive⟩ := h
    by_cases hi : i = .config
    · obtain rfl := hconfig hi
      have hnew : (stagedActive s).Legal := (stagedLegal_iff s).mp (hstaged hi)
      exact ⟨hp, hc, fun _ ha => Option.some.inj ha ▸ hnew, fun _ => rfl⟩
    · obtain rfl := hkeep hi
      refine ⟨hp, hc, hlegal, fun hv => ?_⟩
      by_cases hisv : i = .isvalid
      · subst hisv; exact hneeds rfl
      · exact hvalidActive (hvalid hisv ▸ hv)

theorem performPending_inv {s t : State} (h : s.Inv) (ht : performPending s = .next t) : t.Inv := by
  rcases performPending_cases s with ⟨-, hq⟩ | ⟨_, _, -, -, hq⟩ | ⟨_, i, -, -, hq⟩ <;> rw [hq] at ht
  · cases ht; exact h
  · cases ht; exact h.of_eq rfl rfl rfl rfl
  · exact exec_inv h ht

/-- Settles O14: each of the four kinds of step is an operation that keeps the invariant. -/
theorem stepKeepsInvariant : Obligations.StepKeepsInvariant := by
  intro s t h ht
  have hs : ∀ rest, State.Inv { s with schedule := rest } := fun _ => h.of_eq rfl rfl rfl rfl
  rcases step_cases s with ⟨size, addr, rest, -, hq⟩ | ⟨size, addr, v, rest, -, hq⟩ | ⟨rest, -, hq⟩ | ⟨rest, -, hq⟩ <;>
    rw [hq] at ht
  · cases ht; exact hostRead_inv (hs rest) size addr
  · cases ht; exact hostWrite_inv (hs rest) size addr v
  · cases ht; exact applyReset_inv (hs rest)
  · exact performPending_inv (hs rest) ht

/-! ### Totality, and what each step is -/

theorem performPending_none {s : State} (h : s.pending = none) : performPending s = .next s := by
  simp [performPending, h]

theorem performPending_ok {s : State} {c : Word} {i : Instr} (h : s.pending = some c) (hd : decode c = .ok i) :
    performPending s = exec i s := by
  simp [performPending, h, hd]

theorem step_cons {s : State} {e : Event} {rest : List Event} (h : s.schedule = e :: rest) :
    step s = perform e { s with schedule := rest } := by
  simp [step, takeEvent, h]

theorem performPending_total (s : State) : ∃ t, performPending s = .next t := by
  rcases performPending_cases s with ⟨-, hq⟩ | ⟨_, _, -, -, hq⟩ | ⟨_, i, -, -, hq⟩
  · exact ⟨_, hq⟩
  · exact ⟨_, hq⟩
  · obtain ⟨t, ht, -⟩ := exec_ends i s
    exact ⟨t, hq.trans ht⟩

/-- Settles O7: accesses and resets answer by definition, and every command ends in a next state. -/
theorem everyStepAnswersANextState : Obligations.EveryStepAnswersANextState := by
  constructor
  · intro s
    rcases step_cases s with ⟨_, _, _, -, hq⟩ | ⟨_, _, _, _, -, hq⟩ | ⟨_, -, hq⟩ | ⟨rest, -, hq⟩
    · exact ⟨_, hq⟩
    · exact ⟨_, hq⟩
    · exact ⟨_, hq⟩
    · rw [hq]; exact performPending_total _
  · intro i s
    obtain ⟨t, ht, -⟩ := exec_ends i s
    exact ⟨t, ht⟩

/-- Settles O5: the core's turn decodes the pending word and runs the command. -/
theorem stepRunsTheDecodedCommand : Obligations.StepRunsTheDecodedCommand := by
  intro s rest c i hturn hpending hdecode
  rw [step_coreTurn hturn]
  exact performPending_ok hpending hdecode

/-- Settles O6: the head of the schedule is what the step performs. -/
theorem stepPerformsTheNextEvent : Obligations.StepPerformsTheNextEvent := by
  intro s rest
  refine ⟨fun _ _ hread => step_cons hread, fun _ _ _ hwrite => step_cons hwrite, step_cons, fun hturn hpending => ?_⟩
  rw [step_coreTurn hturn]
  exact performPending_none hpending

end Sys2Proof.Machine
end

section
/-! The slice-by-N kernel is the byte update (R121 to R125): a group step on a register form, then full groups and the tail. -/

namespace Sys2Proof.Machine

/-! ### Register forms -/

/-- The representation is linear (R113). -/
theorem enc_xor (a : Active) (u v : Nat) : enc a (u ^^^ v) = enc a u ^^^ enc a v := by
  unfold enc
  split
  · rw [reflectNat_xor, BitVec.ofNat_xor]
  · rw [Nat.shiftLeft_xor_distrib, BitVec.ofNat_xor]

/-- Encoding a decoded register value leaves its significant field (R112). -/
theorem enc_dec {a : Active} (h : a.Legal) (r : Word) : enc a (dec a r) = sig a r := by
  apply BitVec.eq_of_getLsbD_eq
  intro i _
  rw [getLsbD_enc h (dec_lt h r), getLsbD_sig h, testBit_dec h]
  by_cases hi : shiftAmount a ≤ i ∧ i < shiftAmount a + a.w
  · obtain ⟨hlo, hhi⟩ := hi
    cases hr : a.rin
    · have hlt : i - shiftAmount a < a.w := by omega
      simp [hlo, hhi, hlt]
    · have h0 := shiftAmount_of_rin hr
      have hlt : a.w - 1 - i < a.w := by omega
      have hback : a.w - 1 - (a.w - 1 - i) = i := by omega
      simp [hlo, hhi, hlt, hback]
  · have hout : (decide (shiftAmount a ≤ i) && decide (i < shiftAmount a + a.w)) = false := by simpa using hi
    rw [hout, Bool.false_and, Bool.false_and]

/-- Decoding inverts encoding (R111). -/
theorem dec_enc {a : Active} (h : a.Legal) {v : Nat} (hv : v < 2 ^ a.w) : dec a (enc a v) = v := by
  apply Nat.eq_of_testBit_eq
  intro i
  rw [testBit_dec h, getLsbD_enc h hv]
  by_cases hi : i < a.w
  · cases hr : a.rin
    · simp [hi]
    · have h0 := shiftAmount_of_rin hr
      have hlt : a.w - 1 - i < a.w := by omega
      have hback : a.w - 1 - (a.w - 1 - i) = i := by omega
      simp [hi, h0, hlt, hback]
  · simp [hi, testBit_eq_false_of_lt hv (Nat.le_of_not_lt hi)]

/-- A register form is canonical (R112). -/
theorem sig_enc {a : Active} (h : a.Legal) {v : Nat} (hv : v < 2 ^ a.w) : sig a (enc a v) = enc a v := by
  rw [← enc_dec h, dec_enc h hv]

/-- Bit i of a register form, with the one bound that the value's own length does not give: the field's bottom when RIN = 0, its
top when RIN = 1. -/
theorem getLsbD_enc_eq_ite {a : Active} (h : a.Legal) {v : Nat} (hv : v < 2 ^ a.w) (i : Nat) :
    (enc a v).getLsbD i = if a.rin then (decide (i < a.w) && v.testBit (a.w - 1 - i))
      else (decide (shiftAmount a ≤ i) && v.testBit (i - shiftAmount a)) := by
  rw [getLsbD_enc h hv]
  cases hr : a.rin
  · by_cases hhi : i < shiftAmount a + a.w
    · simp [hhi]
    · simp [testBit_eq_false_of_lt hv (show a.w ≤ i - shiftAmount a by omega)]
  · simp [shiftAmount_of_rin hr]

/-! ### One group -/

/-- A polynomial is its part from x^w up and its part below. -/
theorem shiftRight_shiftLeft_xor_mod (y w : Nat) : mulX (y >>> w) w ^^^ y % 2 ^ w = y := by
  apply Nat.eq_of_testBit_eq
  intro i
  rw [Nat.testBit_xor, mulX, Nat.testBit_shiftLeft, Nat.testBit_shiftRight, Nat.testBit_mod_two_pow]
  by_cases hi : i < w
  · simp [hi, Nat.not_le.mpr hi]
  · have hge : w ≤ i := Nat.le_of_not_lt hi
    simp [hi, hge]

/-- Bit k of the polynomial that input byte i meets: the bit of the canonical value that a shift by i + 1 bytes puts there
(R122, R123). -/
theorem testBit_beta_groupIndexByte {a : Active} (h : a.Legal) {v : Nat} (hv : v < 2 ^ a.w) (i k : Nat) :
    (beta a (groupIndexByte a (enc a v) i)).testBit k =
      (decide (k < 8) && (decide (8 * (i + 1) ≤ a.w + k) && v.testBit (a.w + k - 8 * (i + 1)))) := by
  by_cases hk : k < 8
  swap
  · simp [hk, testBit_eq_false_of_lt (beta_lt a _) (Nat.le_of_not_lt hk)]
  have hw := h.1
  cases hr : a.rin
  · rw [beta, groupIndexByte, hr]
    simp only [Bool.false_eq_true, if_false, BitVec.testBit_toNat, BitVec.getLsbD_setWidth,
      getLsbD_gshr _ _ _ (show k < 64 by omega), getLsbD_enc_eq_ite h hv, hr]
    simp only [indexWidth, shiftAmount, hr, Bool.false_eq_true, if_false]
    by_cases hle : 8 * (i + 1) ≤ a.w + k
    · have hpos : 0 ≤ ((max a.w 8 : Nat) : Int) - 8 * ((i : Int) + 1) + k := by omega
      have hlo : 8 - a.w ≤ (((max a.w 8 : Nat) : Int) - 8 * ((i : Int) + 1) + k).toNat := by omega
      have hidx : (((max a.w 8 : Nat) : Int) - 8 * ((i : Int) + 1) + k).toNat - (8 - a.w) = a.w + k - 8 * (i + 1) := by omega
      simp only [hpos, hlo, hidx, hle, decide_true, Bool.true_and]
    · have hlo : ¬ (0 ≤ ((max a.w 8 : Nat) : Int) - 8 * ((i : Int) + 1) + k ∧
          8 - a.w ≤ (((max a.w 8 : Nat) : Int) - 8 * ((i : Int) + 1) + k).toNat) := by omega
      rcases not_and_or.mp hlo with hout | hout <;>
        simp only [hout, hle, decide_false, Bool.false_and, Bool.and_false]
  · rw [beta, groupIndexByte, hr]
    have hidx : ((8 * (i : Int)) + (8 - 1 - k : Nat)).toNat = 8 * i + 7 - k := by omega
    have hpos : 0 ≤ (8 * (i : Int)) + (8 - 1 - k : Nat) := by omega
    simp only [if_true, testBit_reflectNat, BitVec.testBit_toNat, BitVec.getLsbD_setWidth,
      getLsbD_gshr _ _ _ (show 8 - 1 - k < 64 by omega), getLsbD_enc_eq_ite h hv, hr, hidx, hpos, hk,
      show 8 - 1 - k < 8 by omega, decide_true, Bool.true_and]
    by_cases hle : 8 * (i + 1) ≤ a.w + k
    · have hin : 8 * i + 7 - k < a.w := by omega
      have hidx' : a.w - 1 - (8 * i + 7 - k) = a.w + k - 8 * (i + 1) := by omega
      simp only [hin, hidx', hle]
    · have hin : ¬ 8 * i + 7 - k < a.w := by omega
      simp only [hin, hle, decide_false, Bool.false_and]

/-- The bytes that a group of m input bytes meets are, as a polynomial, the part of v·x^(8m) from x^W up. -/
theorem messagePoly_groupIndexBytes {a : Active} (h : a.Legal) {v : Nat} (hv : v < 2 ^ a.w) (m : Nat) :
    messagePoly a ((List.range m).map (groupIndexByte a (enc a v))) = mulX v (8 * m) >>> a.w := by
  induction m with
  | zero => simp [messagePoly, mulX, Nat.shiftRight_eq_div_pow, Nat.div_eq_of_lt hv]
  | succ m ih =>
    rw [List.range_succ, List.map_append, messagePoly_append, ih, List.map_singleton, messagePoly_singleton,
      List.length_singleton]
    apply Nat.eq_of_testBit_eq
    intro k
    simp only [Nat.testBit_xor, mulX, Nat.testBit_shiftLeft, Nat.testBit_shiftRight, testBit_beta_groupIndexByte h hv]
    by_cases hk : k < 8
    · simp [hk, Nat.not_le.mpr hk]
    · have hge : 8 ≤ k := Nat.le_of_not_lt hk
      have hidx : a.w + (k - 8) - 8 * m = a.w + k - 8 * (m + 1) := by omega
      have hpos : 8 * m ≤ a.w + (k - 8) ↔ 8 * (m + 1) ≤ a.w + k := by omega
      simp [hk, hge, hidx, hpos]

/-- The rest of a group is the register form of the part of v·x^(8m) below x^W (R122, R123). -/
theorem groupRest_enc {a : Active} (h : a.Legal) {v : Nat} (hv : v < 2 ^ a.w) (m : Nat) :
    groupRest a (enc a v) m = enc a (mulX v (8 * m) % 2 ^ a.w) := by
  have hlt : mulX v (8 * m) % 2 ^ a.w < 2 ^ a.w := Nat.mod_lt _ (by positivity)
  apply BitVec.eq_of_getLsbD_eq
  intro i hi
  rw [getLsbD_enc h hlt, Nat.testBit_mod_two_pow, mulX, Nat.testBit_shiftLeft]
  cases hr : a.rin
  · have hrest : groupRest a (enc a v) m = sig a (gshl (enc a v) (8 * m)) := by rw [groupRest, hr]; rfl
    simp only [hrest, hr, Bool.false_eq_true, if_false, getLsbD_sig h, getLsbD_gshl _ _ _ hi, getLsbD_enc_eq_ite h hv]
    by_cases hfield : shiftAmount a ≤ i ∧ i < shiftAmount a + a.w
    swap
    · rw [(by simpa using hfield : (decide (shiftAmount a ≤ i) && decide (i < shiftAmount a + a.w)) = false),
        Bool.false_and, Bool.false_and]
    obtain ⟨hlo, hhi⟩ := hfield
    have hin : i - shiftAmount a < a.w := by omega
    by_cases hm : 8 * m ≤ i - shiftAmount a
    · have hpos : 8 * (m : Int) ≤ i := by omega
      have hlo' : shiftAmount a ≤ (i - 8 * (m : Int)).toNat := by omega
      have hidx : (i - 8 * (m : Int)).toNat - shiftAmount a = i - shiftAmount a - 8 * m := by omega
      simp only [hlo, hhi, hin, hm, hpos, hlo', hidx]
    · have hout : ¬ (8 * (m : Int) ≤ i ∧ shiftAmount a ≤ (i - 8 * (m : Int)).toNat) := by omega
      rcases not_and_or.mp hout with hout | hout <;>
        simp only [hm, hout, decide_false, Bool.false_and, Bool.and_false]
  · have hidx : (8 * (m : Int) + i).toNat = 8 * m + i := by omega
    have hpos : 0 ≤ 8 * (m : Int) + i := by omega
    simp only [groupRest, hr, if_true, getLsbD_gshr _ _ _ hi, getLsbD_enc_eq_ite h hv, shiftAmount_of_rin hr, hidx, hpos,
      Nat.zero_add, Nat.zero_le, decide_true, Bool.true_and]
    by_cases hm : 8 * m + i < a.w
    · have hfield : i < a.w ∧ a.w - 1 - i < a.w ∧ 8 * m ≤ a.w - 1 - i := by omega
      obtain ⟨hi, hlt, hle⟩ := hfield
      have hidx : a.w - 1 - (8 * m + i) = a.w - 1 - i - 8 * m := by omega
      simp only [hm, hi, hlt, hle, hidx, decide_true, Bool.true_and]
    · have hout : ¬ (i < a.w ∧ 8 * m ≤ a.w - 1 - i) := by omega
      rcases not_and_or.mp hout with hout | hout <;>
        simp only [hm, hout, ge_iff_le, decide_false, Bool.false_and, Bool.and_false]

/-- The table entries of a group, summed: the group's bytes, each with the byte it meets, as one polynomial times x^W (R121). -/
theorem groupAcc_eq (a : Active) (n m : Nat) (r : Word) (hm : m ≤ n) (ds : List Byte) (i : Nat) (hi : i + ds.length = m)
    (acc : Word) :
    groupAcc a n m r i ds acc = acc ^^^ enc a (modG a (mulX
      (messagePoly a ds ^^^ messagePoly a ((List.range' i ds.length).map (groupIndexByte a r))) a.w)) := by
  induction ds generalizing i acc with
  | nil => simp [groupAcc, messagePoly, mulX, modG_of_lt a (Nat.two_pow_pos a.w), enc, reflectNat_zero]
  | cons d ds ih =>
    rw [List.length_cons] at hi
    have hexp : n - 1 - (n - m + i) = ds.length := by omega
    rw [groupAcc, ih (i + 1) (by omega), tableEntry, hexp, BitVec.xor_assoc, ← enc_xor, ← modG_xor, beta_xor,
      List.length_cons, List.range'_succ, List.map_cons, messagePoly_cons, messagePoly_cons, List.length_map,
      List.length_range']
    simp only [mulX_xor, mulX_mulX]
    congr 3
    ac_rfl

/-- A group step processes its bytes (R122, R123, R125). -/
theorem groupStep_enc {a : Active} (h : a.Legal) {n : Nat} {v : Nat} (hv : v < 2 ^ a.w) (ds : List Byte)
    (hn : ds.length ≤ n) : groupStep a n (enc a v) ds = enc a (ds.foldl (byteStep a) v) := by
  have hlow : modG a (mulX v (8 * ds.length) % 2 ^ a.w) = mulX v (8 * ds.length) % 2 ^ a.w :=
    modG_of_lt a (Nat.mod_lt _ (by positivity))
  have hsplit : mulX (mulX v (8 * ds.length) >>> a.w) a.w ^^^ mulX v (8 * ds.length) % 2 ^ a.w = mulX v (8 * ds.length) := by
    exact shiftRight_shiftLeft_xor_mod _ _
  have hzero (x : Word) : 0 ^^^ x = x := BitVec.zero_xor
  rw [groupStep, groupAcc_eq a n ds.length _ hn ds 0 (Nat.zero_add _), ← List.range_eq_range',
    messagePoly_groupIndexBytes h hv, groupRest_enc h hv, foldl_byteStep h hv]
  nth_rewrite 1 [← hlow]
  rw [hzero, ← enc_xor, ← modG_xor, mulX_xor, Nat.xor_assoc, hsplit, Nat.xor_comm]

/-! ### The schedule -/

/-- The full groups process their bytes and leave the others (R124). -/
theorem kernelFull_enc {a : Active} (h : a.Legal) (n q : Nat) {v : Nat} (hv : v < 2 ^ a.w) (ds : List Byte)
    (hq : q * n ≤ ds.length) :
    kernelFull a n q (enc a v) ds = (enc a ((ds.take (q * n)).foldl (byteStep a) v), ds.drop (q * n)) := by
  induction q generalizing v ds with
  | zero => simp [kernelFull]
  | succ q ih =>
    have hcount : (q + 1) * n = n + q * n := by rw [Nat.succ_mul, Nat.add_comm]
    rw [hcount] at hq ⊢
    have hrest : q * n ≤ (ds.drop n).length := by rw [List.length_drop]; omega
    rw [kernelFull, groupStep_enc h hv _ (List.length_take_le ..), ih (foldl_byteStep_lt h hv _) _ hrest, List.take_add,
      List.foldl_append, List.drop_drop]

/-- The tail processes all its bytes: one block for each bit of their number (R124). -/
theorem kernelTail_enc {a : Active} (h : a.Legal) {n t : Nat} (ht : t < n) (k : Nat) {v : Nat} (hv : v < 2 ^ a.w)
    (ds : List Byte) (hlen : ds.length = t % 2 ^ k) :
    kernelTail a n t k (enc a v) ds = enc a (ds.foldl (byteStep a) v) := by
  induction k generalizing v ds with
  | zero =>
    have hnil : ds = [] := List.eq_nil_of_length_eq_zero (by rw [hlen, Nat.pow_zero, Nat.mod_one])
    rw [hnil]; rfl
  | succ k ih =>
    rw [Nat.mod_pow_succ] at hlen
    have hdigit := Nat.testBit_eq_decide_div_mod_eq (x := t) (i := k)
    rw [kernelTail]
    cases hbit : t.testBit k
    · have hzero : t / 2 ^ k % 2 = 0 := by simpa [hbit] using hdigit
      exact ih hv ds (by rw [hlen, hzero, Nat.mul_zero, Nat.add_zero])
    · have hone : t / 2 ^ k % 2 = 1 := by simpa [hbit] using hdigit
      have hblock : 2 ^ k ≤ n := (Nat.ge_two_pow_of_testBit hbit).trans ht.le
      have hrest : (ds.drop (2 ^ k)).length = t % 2 ^ k := by
        rw [List.length_drop, hlen, hone, Nat.mul_one, Nat.add_sub_cancel]
      rw [if_pos rfl, groupStep_enc h hv _ ((List.length_take_le ..).trans hblock),
        ih (foldl_byteStep_lt h hv _) _ hrest, ← List.foldl_append, List.take_append_drop]

/-- The slice-by-N kernel computes PROC, whatever N is (R125). -/
theorem kernel_eq_proc {a : Active} (h : a.Legal) {n : Nat} (hn : 1 ≤ n) (r : Word) (ds : List Byte) :
    kernel a n r ds = proc a r ds := by
  have hfull : ds.length / n * n ≤ ds.length := Nat.div_mul_le_self ..
  have htail : ds.length % n < n := Nat.mod_lt _ hn
  have hlog : n - 1 < 2 ^ ((n - 1).log2 + 1) := Nat.lt_log2_self
  have hrest : (ds.drop (ds.length / n * n)).length = ds.length % n % 2 ^ ((n - 1).log2 + 1) := by
    rw [Nat.mod_eq_of_lt (show ds.length % n < 2 ^ ((n - 1).log2 + 1) by omega), List.length_drop]
    have := Nat.div_add_mod' ds.length n
    omega
  rw [kernel, ← enc_dec h, kernelFull_enc h n _ (dec_lt h r) ds hfull,
    kernelTail_enc h htail _ (foldl_byteStep_lt h (dec_lt h r) _) _ hrest, ← List.foldl_append, List.take_append_drop, proc]

end Sys2Proof.Machine
end

section
/-! What a command answers, as a function of the command and the state: one of three failures, or the registers it writes. -/

namespace Sys2Proof.Machine

/-- Command `i` fails in state `s` with error `e` (R85, R221 to R223). -/
def State.FailsWith (s : State) (i : Instr) (e : ErrorCode) : Prop :=
  (e = .noCfg ∧ needsActive i = true ∧ s.active = none) ∨
    (e = .arg ∧ (needsActive i = true → s.active.isSome = true) ∧ argInRange s.params.nSlice i = false) ∨
    (e = .param ∧ i = .config ∧ stagedLegal s = false)

/-- ACTIVE after command `i` that passes its checks. -/
def activeAfter (s : State) : Instr → Option Active
  | .config => some (stagedActive s)
  | _ => s.active

/-- VALID after command `i` that passes its checks under the configuration `a`. -/
def validAfter (a : Active) (s : State) : Instr → Bool
  | .isvalid => validp a s.crcState
  | _ => s.valid

/-- STATE after command `i` that passes its checks under the configuration `a`. -/
def crcAfter (a : Active) (s : State) : Instr → Word
  | .config => initVal (stagedActive s)
  | .init => initVal a
  | .zero => 0
  | .process len => kernel a s.params.nSlice s.crcState (dataBytes s.data len)
  | .combine => comb a s.crcState s.opb
  | .zext => zx a s.crcState s.count
  | _ => s.crcState

/-- RESULT after command `i` that passes its checks under the configuration `a`. -/
def resultAfter (a : Active) (s : State) : Instr → Word
  | .finalize => fin a s.crcState
  | .isvalid => flagAt (validp a s.crcState) 0
  | .clmul => enc a (mulmod a (dec a s.opa) (dec a s.opb))
  | .reflect b => reflect s.opa b
  | .lutrd slice b => tableEntry a s.params.nSlice slice (BitVec.ofNat 8 b)
  | .foldrd k => foldEntry a k
  | .resrd => residue a
  | _ => s.result

/-- The state command `i` leaves when it passes its checks under the configuration `a`. -/
def State.after (s : State) (a : Active) (i : Instr) : State :=
  s.done (activeAfter s i) (validAfter a s i) (crcAfter a s i) (resultAfter a s i)

theorem exec_of_failsWith {i : Instr} {s : State} {e : ErrorCode} (h : s.FailsWith i e) :
    exec i s = .next (s.failed e) := by
  rcases h with ⟨rfl, hneeds, hnone⟩ | ⟨rfl, hneeds, hrange⟩ | ⟨rfl, rfl, hstaged⟩
  · exact exec_unconfigured hneeds hnone
  · exact exec_argOutOfRange hneeds hrange
  · exact exec_config_illegal hstaged

/-- A command that passes its checks, under the active configuration if it needs one. -/
theorem exec_of_checksPass {i : Instr} {s : State} {a : Active} (h : s.ChecksPass i)
    (ha : needsActive i = true → s.active = some a) : exec i s = .next (s.after a i) := by
  obtain ⟨-, hrange, hstaged⟩ := h
  cases i
  case nop => rfl
  case zero => rfl
  case config => exact exec_config_legal (hstaged rfl)
  case init => exact exec_init_some (ha rfl)
  case process len => exact exec_process_some (ha rfl) (of_decide_eq_true hrange)
  case finalize => exact exec_finalize_some (ha rfl)
  case isvalid => exact exec_isvalid_some (ha rfl)
  case combine => exact exec_combine_some (ha rfl)
  case zext => exact exec_zext_some (ha rfl)
  case clmul => exact exec_clmul_some (ha rfl)
  case reflect b =>
    obtain ⟨hlo, hhi⟩ : 1 ≤ b ∧ b ≤ 64 := of_decide_eq_true hrange
    exact exec_reflect_legal hlo hhi
  case lutrd slice b => exact exec_lutrd_some (ha rfl) (of_decide_eq_true hrange)
  case foldrd k => exact exec_foldrd_some (ha rfl) (of_decide_eq_true hrange)
  case resrd => exact exec_resrd_some (ha rfl)

/-- A command fails one of its checks or passes them all. -/
theorem failsWith_or_checksPass (i : Instr) (s : State) : (∃ e, s.FailsWith i e) ∨ s.ChecksPass i := by
  rcases exec_cases i s with ⟨e, hfail, -⟩ | ⟨hpass, -⟩
  · exact .inl ⟨e, hfail⟩
  · exact .inr hpass

/-- The checks read ACTIVE, N_SLICE and, for CONFIG, the staging registers. -/
theorem State.FailsWith.congr {i : Instr} {s u : State} {e : ErrorCode} (h : s.FailsWith i e) (hactive : u.active = s.active)
    (hparams : u.params = s.params) (hstaged : i = .config → stagedLegal u = stagedLegal s) : u.FailsWith i e := by
  rcases h with ⟨he, hneeds, hnone⟩ | ⟨he, hneeds, hrange⟩ | ⟨he, hi, hill⟩
  · exact .inl ⟨he, hneeds, hactive.trans hnone⟩
  · exact .inr (.inl ⟨he, hactive ▸ hneeds, hparams ▸ hrange⟩)
  · exact .inr (.inr ⟨he, hi, (hstaged hi).trans hill⟩)

theorem checksPass_congr {i : Instr} {s u : State} (h : s.ChecksPass i) (hactive : u.active = s.active)
    (hparams : u.params = s.params) (hstaged : i = .config → stagedLegal u = stagedLegal s) : u.ChecksPass i := by
  obtain ⟨hneeds, hrange, hlegal⟩ := h
  exact ⟨hactive ▸ hneeds, hparams ▸ hrange, fun hi => (hstaged hi).trans (hlegal hi)⟩

/-- A command that passes its checks runs under some configuration, the active one if it needs one. -/
theorem exists_active_of_checksPass {i : Instr} {s : State} (h : s.ChecksPass i) :
    ∃ a, needsActive i = true → s.active = some a := by
  cases hs : s.active with
  | some a => exact ⟨a, fun _ => rfl⟩
  | none => exact ⟨stagedActive s, fun hneeds => by simpa [hs] using h.1 hneeds⟩

/-! ### The staging registers -/

/-- `s` with other values in the staging registers. -/
def State.withStaging (s : State) (cfg poly initReg xorout : Word) : State :=
  { s with cfg := cfg, poly := poly, initReg := initReg, xorout := xorout }

/-- What a command other than CONFIG leaves does not depend on the staging registers. -/
theorem after_withStaging {i : Instr} (hi : i ≠ .config) (a : Active) (s : State) (cfg poly initReg xorout : Word) :
    (s.withStaging cfg poly initReg xorout).after a i = (s.after a i).withStaging cfg poly initReg xorout := by
  cases i
  case config => exact absurd rfl hi
  all_goals rfl

/-! ### The significant field -/

/-- Two register values with the same significant field have the same canonical value (R113). -/
theorem dec_eq_of_sig_eq {a : Active} (h : a.Legal) {r q : Word} (hs : sig a r = sig a q) : dec a r = dec a q := by
  rw [← dec_enc h (dec_lt h r), ← dec_enc h (dec_lt h q), enc_dec h, enc_dec h, hs]

theorem sig_xor (a : Active) (r q : Word) : sig a (r ^^^ q) = sig a r ^^^ sig a q := by
  apply BitVec.eq_of_toNat_eq
  simp only [sig, BitVec.toNat_and, BitVec.toNat_xor, Nat.and_xor_distrib_right]

theorem sig_sig (a : Active) (r : Word) : sig a (sig a r) = sig a r := by rw [sig, sig, BitVec.and_assoc, BitVec.and_self]

/-- `s` with other values in STATE, OPA and OPB. -/
def State.withOperands (s : State) (r oa ob : Word) : State := { s with crcState := r, opa := oa, opb := ob }

/-- STATE after a command depends on the significant fields only: its own where it is kept, whole where it is written. -/
theorem sig_crcAfter_congr {a a' : Active} {i : Instr} {s : State} {r oa ob : Word} (hr : sig a r = sig a s.crcState)
    (hb : sig a ob = sig a s.opb) (hs : s.active = some a) (ha' : activeAfter s i = some a') :
    sig a' (crcAfter a (s.withOperands r oa ob) i) = sig a' (crcAfter a s i) := by
  cases i
  case config => rfl
  case init => rfl
  case zero => rfl
  case process len => simp only [crcAfter, State.withOperands, kernel, hr]
  case combine => simp only [crcAfter, State.withOperands, comb, hr, hb]
  case zext => simp only [crcAfter, State.withOperands, zx, hr]
  all_goals
    obtain rfl : a = a' := Option.some.inj (hs.symm.trans ha')
    exact hr

/-- RESULT after a command depends on the significant fields only, and on the whole of OPA for REFLECT. -/
theorem resultAfter_congr {a : Active} (h : a.Legal) {i : Instr} {s : State} {r oa ob : Word} (hr : sig a r = sig a s.crcState)
    (ho : sig a oa = sig a s.opa) (hb : sig a ob = sig a s.opb) (hreflect : (∃ b, i = .reflect b) → oa = s.opa) :
    resultAfter a (s.withOperands r oa ob) i = resultAfter a s i := by
  cases i
  case finalize => simp only [resultAfter, State.withOperands, fin, dec_eq_of_sig_eq h hr]
  case isvalid => simp only [resultAfter, State.withOperands, validp, hr]
  case clmul => simp only [resultAfter, State.withOperands, dec_eq_of_sig_eq h ho, dec_eq_of_sig_eq h hb]
  case reflect b => simp only [resultAfter, State.withOperands, hreflect ⟨b, rfl⟩]
  all_goals rfl

theorem validAfter_congr {a : Active} {i : Instr} {s : State} {r oa ob : Word} (hr : sig a r = sig a s.crcState) :
    validAfter a (s.withOperands r oa ob) i = validAfter a s i := by
  cases i
  case isvalid => simp only [validAfter, State.withOperands, validp, hr]
  all_goals rfl

theorem activeAfter_congr (i : Instr) (s : State) (r oa ob : Word) :
    activeAfter (s.withOperands r oa ob) i = activeAfter s i := by
  cases i <;> rfl

/-! ### Canonical form -/

theorem sig_comb (a : Active) (r q : Word) : sig a (comb a r q) = comb a r q := by
  rw [comb, sig_xor, sig_sig, sig_sig]

/-- One turn of ZX keeps the canonical form. -/
theorem sig_zxStep {a : Active} (h : a.Legal) (n : Word) {q : Word} (hq : sig a q = q) (k : Nat) :
    sig a (zxStep a n q k) = zxStep a n q k := by
  unfold zxStep
  split
  · exact sig_enc h (modG_lt h _)
  · exact hq

theorem sig_foldl_zxStep {a : Active} (h : a.Legal) (n : Word) (turns : List Nat) {q : Word} (hq : sig a q = q) :
    sig a (turns.foldl (zxStep a n) q) = turns.foldl (zxStep a n) q := by
  induction turns generalizing q with
  | nil => exact hq
  | cons k turns ih => exact ih (sig_zxStep h n hq k)

theorem sig_zx {a : Active} (h : a.Legal) (r n : Word) : sig a (zx a r n) = zx a r n :=
  sig_foldl_zxStep h n _ (sig_sig a r)

theorem sig_proc {a : Active} (h : a.Legal) (r : Word) (ds : List Byte) : sig a (proc a r ds) = proc a r ds :=
  sig_enc h (foldl_byteStep_lt h (dec_lt h r) ds)

theorem sig_initVal {a : Active} (h : a.Legal) : sig a (initVal a) = initVal a := by
  have ⟨_, _, _, hi, _⟩ := h
  exact sig_enc h hi

end Sys2Proof.Machine
end

section
/-! What every command writes, reads and leaves: the frame, the isolation of the staging registers and of the bits outside the
significant field, canonical form, PROCESS. -/

namespace Sys2Proof.Machine

/-- Settles O17: a command either fails one check, or writes only ACTIVE, VALID, STATE and RESULT, each only for its own
commands. -/
theorem commandsWriteOnlyTheirRegisters : Obligations.CommandsWriteOnlyTheirRegisters := by
  intro i s t ht
  rcases exec_cases i s with ⟨e, -, he⟩ | ⟨-, act, v, c, r, he, hkeep, -, hvalid, hcrc, hresult⟩
  · obtain rfl : s.failed e = t := Host.Outcome.next.inj (he.symm.trans ht)
    simp [State.failed]
  · obtain rfl : s.done act v c r = t := Host.Outcome.next.inj (he.symm.trans ht)
    exact ⟨rfl, rfl, rfl, rfl, rfl, rfl, rfl, rfl, rfl, rfl, rfl, rfl, rfl, fun hne => by_contra fun hi => hne (hkeep hi),
      fun hne => by_contra fun hi => hne (hvalid hi), hcrc, hresult⟩

/-- Settles O21: neither the checks nor the registers written depend on the staging registers, but for CONFIG. -/
theorem onlyConfigReadsTheStagingRegisters : Obligations.OnlyConfigReadsTheStagingRegisters := by
  intro i s t cfg poly initReg xorout hi ht
  rcases failsWith_or_checksPass i s with ⟨e, hfail⟩ | hpass
  · obtain rfl : s.failed e = t := Host.Outcome.next.inj ((exec_of_failsWith hfail).symm.trans ht)
    exact exec_of_failsWith (hfail.congr rfl rfl fun h => absurd h hi)
  · obtain ⟨a, ha⟩ := exists_active_of_checksPass hpass
    obtain rfl : s.after a i = t := Host.Outcome.next.inj ((exec_of_checksPass hpass ha).symm.trans ht)
    have hpass' : (s.withStaging cfg poly initReg xorout).ChecksPass i :=
      checksPass_congr hpass rfl rfl fun h => absurd h hi
    exact (exec_of_checksPass hpass' ha).trans (congrArg _ (after_withStaging hi a s cfg poly initReg xorout))

/-- Settles O22: the checks read none of STATE, OPA and OPB, and each register written depends on their significant fields
only. -/
theorem bitsOutsideTheFieldNeverMatter : Obligations.BitsOutsideTheFieldNeverMatter := by
  intro i s t a r oa ob hs hlegal hr ho hb hreflect ht
  rcases failsWith_or_checksPass i s with ⟨e, hfail⟩ | hpass
  · obtain rfl : s.failed e = t := Host.Outcome.next.inj ((exec_of_failsWith hfail).symm.trans ht)
    refine ⟨_, exec_of_failsWith (hfail.congr rfl rfl fun _ => rfl), rfl, rfl, rfl, rfl, fun a' ha' => ?_⟩
    obtain rfl : a = a' := Option.some.inj (hs.symm.trans ha')
    exact hr
  · obtain rfl : s.after a i = t := Host.Outcome.next.inj ((exec_of_checksPass hpass fun _ => hs).symm.trans ht)
    have hpass' : (s.withOperands r oa ob).ChecksPass i := checksPass_congr hpass rfl rfl fun _ => rfl
    exact ⟨_, exec_of_checksPass hpass' fun _ => hs,
      resultAfter_congr hlegal hr ho hb hreflect, validAfter_congr hr, rfl, activeAfter_congr i s r oa ob,
      fun a' => sig_crcAfter_congr hr hb hs⟩

/-- Settles O23: INITVAL, PROC, COMB and ZX are canonical, and CONFIG's new configuration is legal. -/
theorem commandsLeaveStateCanonical : Obligations.CommandsLeaveStateCanonical := by
  refine ⟨fun i s a hinv ha hrange hi => ?_, fun s hstaged => ?_, fun s => ⟨_, rfl, rfl⟩⟩
  · obtain ⟨hparams, -, hlegal, -⟩ := hinv
    have ha' := hlegal a ha
    rcases hi with rfl | ⟨len, rfl⟩ | rfl | rfl
    · exact ⟨_, exec_init_some ha, ha, sig_initVal ha'⟩
    · refine ⟨_, exec_process_some ha (of_decide_eq_true hrange), ha, ?_⟩
      simp only [State.done, kernel_eq_proc ha' hparams.1, sig_proc ha']
    · exact ⟨_, exec_combine_some ha, ha, sig_comb a _ _⟩
    · exact ⟨_, exec_zext_some ha, ha, sig_zx ha' _ _⟩
  · exact ⟨_, _, exec_config_legal hstaged, rfl, sig_initVal ((stagedLegal_iff s).mp hstaged)⟩

/-- Settles O38: the kernel PROCESS runs computes PROC. -/
theorem processUpdatesStateByteByByte : Obligations.ProcessUpdatesStateByteByByte := by
  intro s a len hinv ha hlen
  obtain ⟨hparams, -, hlegal, -⟩ := hinv
  rw [exec_process_some ha hlen, kernel_eq_proc (hlegal a ha) hparams.1]
  rfl

end Sys2Proof.Machine
end

section
/-! What a step changes of ACTIVE and of the error bits, and what a reset leaves. -/

namespace Sys2Proof.Machine

/-- A row of the opcode map builds commands of its own opcode (R84). -/
theorem opcode_form {row : OpcodeRow} (h : row ∈ opcodeMap) (arg byte : Nat) : (row.form arg byte).opcode = row.opc := by
  simp only [opcodeMap, List.mem_cons, List.not_mem_nil, or_false] at h
  rcases h with rfl | rfl | rfl | rfl | rfl | rfl | rfl | rfl | rfl | rfl | rfl | rfl | rfl | rfl <;> rfl

/-- CONFIG's row of the opcode map (R84). -/
theorem opcodeMap_config : ∀ row ∈ opcodeMap, row.opc = 0x01 → row.mask = 0xFFFFFFFFFFFFFFFF ∧ row.matchBits = 0x1 := by
  decide

/-- CONFIG's word is 0x1 and no other. -/
theorem eq_one_of_decode_config {c : Word} (h : decode c = .ok .config) : c = 0x1 := by
  obtain ⟨row, hrow, hmatch, hform⟩ := (decode_ok_iff c .config).mp h
  have hmem : row ∈ opcodeMap := List.mem_of_getElem? hrow
  have hopc : row.opc = 0x01 := by rw [← opcode_form hmem (argField c) (byteField c), ← hform]; rfl
  obtain ⟨hmask, hbits⟩ := opcodeMap_config row hmem hopc
  rw [hmask, hbits] at hmatch
  exact (mask_none_iff c 0x1).mp hmatch

/-! ### ACTIVE -/

theorem hostRead_active (size addr : Nat) (s : State) : (hostRead size addr s).active = s.active := by
  obtain ⟨r, d, hr⟩ := hostRead_cases size addr s
  rw [hr]

theorem storeReg_active (s : State) (v : Word) (r : Reg) : (s.storeReg v r).active = s.active := by cases r <;> rfl

theorem hostWrite_active (size addr : Nat) (v : Word) (s : State) : (hostWrite size addr v s).active = s.active := by
  rcases hostWrite_cases size addr v s with hw | hw | ⟨r, -, -, hw⟩ <;> rw [hw]
  · rfl
  · rfl
  · rcases writeReg_cases s v r with ⟨-, -, hq⟩ | ⟨-, hq⟩ <;> rw [hq]
    · rfl
    · exact storeReg_active s v r

/-- The core's turn changes ACTIVE only by performing CONFIG's word, which defines it. -/
theorem performPending_active {s t : State} (ht : performPending s = .next t) (hne : t.active ≠ s.active) :
    s.pending = some 0x1 ∧ t.active.isSome = true := by
  rcases performPending_cases s with ⟨-, hq⟩ | ⟨_, _, -, -, hq⟩ | ⟨c, i, hpending, hdecode, hq⟩ <;> rw [hq] at ht
  · cases ht; exact absurd rfl hne
  · cases ht; exact absurd rfl hne
  · rcases exec_cases i s with ⟨e, -, he⟩ | ⟨-, act, v, c', r, he, hkeep, hconfig, -⟩ <;> rw [he] at ht <;> cases ht
    · exact absurd rfl hne
    · obtain rfl : i = .config := by_contra fun hi => hne (hkeep hi)
      obtain rfl := eq_one_of_decode_config hdecode
      exact ⟨hpending, by rw [hconfig rfl]; rfl⟩

/-- Settles O18: accesses keep ACTIVE, a reset undefines it, and the core's turn changes it by CONFIG only. -/
theorem activeChangesOnlyByConfigOrReset : Obligations.ActiveChangesOnlyByConfigOrReset := by
  intro s t ht hne
  rcases step_cases s with ⟨size, addr, rest, -, hq⟩ | ⟨size, addr, v, rest, -, hq⟩ | ⟨rest, hsched, hq⟩ |
    ⟨rest, hturn, hq⟩ <;> rw [hq] at ht
  · cases ht; exact absurd (hostRead_active size addr _) hne
  · cases ht; exact absurd (hostWrite_active size addr v _) hne
  · cases ht; exact .inl ⟨by rw [hsched]; rfl, rfl⟩
  · obtain ⟨hpending, hsome⟩ := performPending_active ht hne
    exact .inr ⟨rest, hturn, hpending, hsome⟩

/-! ### The error bits -/

theorem hostRead_errors (size addr : Nat) (s : State) : (hostRead size addr s).errors = s.errors := by
  obtain ⟨r, d, hr⟩ := hostRead_cases size addr s
  rw [hr]

/-- A register write that lowers an error bit is a write of 1 to it in STATUS. -/
theorem writeReg_clears {s : State} {v : Word} {r : Reg} {e : ErrorCode} (hset : s.errors.get e = true)
    (hclear : (s.writeReg v r).errors.get e = false) : r = .status ∧ v.getLsbD e.bit = true := by
  rcases writeReg_cases s v r with ⟨-, -, hq⟩ | ⟨-, hq⟩ <;> rw [hq] at hclear
  · rw [ErrorBits.get_set, hset] at hclear
    cases hclear
  · cases r
    case status =>
      rw [State.storeReg, State.clearErrors_errors, ErrorBits.get_clear, hset] at hclear
      exact ⟨rfl, by simpa using hclear⟩
    all_goals exact absurd (hset.symm.trans hclear) (by decide)

/-- A host write that lowers an error bit is a defined write of 1 to it in STATUS. -/
theorem hostWrite_clears {s : State} {size addr : Nat} {v : Word} {e : ErrorCode} (hset : s.errors.get e = true)
    (hclear : (hostWrite size addr v s).errors.get e = false) :
    size = 8 ∧ addr = s.params.baseAddr + 0x50 ∧ v.getLsbD e.bit = true := by
  rcases hostWrite_cases size addr v s with hw | hw | ⟨r, hsize, haddr, hw⟩ <;> rw [hw] at hclear
  · exact absurd (hset.symm.trans hclear) (by decide)
  · exact absurd (hset.symm.trans hclear) (by decide)
  · obtain ⟨rfl, hv⟩ := writeReg_clears hset hclear
    exact ⟨hsize, haddr, hv⟩

theorem failed_keeps_error {s : State} {e k : ErrorCode} (hset : s.errors.get e = true) :
    (s.failed k).errors.get e = true := by
  rw [State.failed, ErrorBits.get_set, hset, Bool.true_or]

/-- The core's turn lowers no error bit (R229). -/
theorem performPending_keeps_error {s t : State} {e : ErrorCode} (ht : performPending s = .next t)
    (hset : s.errors.get e = true) : t.errors.get e = true := by
  rcases performPending_cases s with ⟨-, hq⟩ | ⟨_, _, -, -, hq⟩ | ⟨_, i, -, -, hq⟩ <;> rw [hq] at ht
  · cases ht; exact hset
  · cases ht; exact failed_keeps_error hset
  · rcases exec_cases i s with ⟨k, -, hk⟩ | ⟨-, act, v, c, r, hdone, -⟩
    · cases hk.symm.trans ht; exact failed_keeps_error hset
    · cases hdone.symm.trans ht; exact hset

/-- Settles O19: reads and the core's turn lower no error bit, and a write only as the rule says. -/
theorem errorBitsAreSticky : Obligations.ErrorBitsAreSticky := by
  intro s t e ht hset hclear
  rcases step_cases s with ⟨size, addr, rest, -, hq⟩ | ⟨size, addr, v, rest, hsched, hq⟩ | ⟨rest, hsched, hq⟩ |
    ⟨rest, -, hq⟩ <;> rw [hq] at ht
  · cases ht
    rw [hostRead_errors, hset] at hclear
    cases hclear
  · cases ht
    obtain ⟨rfl, haddr, hv⟩ := hostWrite_clears (s := { s with schedule := rest }) hset hclear
    exact .inr ⟨v, by rw [hsched, haddr]; rfl, hv⟩
  · exact .inl (by rw [hsched]; rfl)
  · have hkept := performPending_keeps_error (e := e) ht hset
    exact absurd (hkept.symm.trans hclear) (by decide)

/-! ### Reset -/

/-- Settles O15: the reset values meet the invariant whatever the legal parameters. -/
theorem resetSatisfiesInvariant : Obligations.ResetSatisfiesInvariant := by
  have hreset (p : Params) (h : p.Legal) : (State.resetOf p).Inv :=
    ⟨h, by simp [State.resetOf], by simp [State.resetOf], by simp [State.resetOf]⟩
  exact ⟨hreset Config.referenceParams (by decide), hreset⟩

/-- What a reset leaves in the staging registers has width 0, which CONFIG rejects (R47). -/
theorem stagedLegal_applyReset (s : State) : stagedLegal s.applyReset = false := by
  have hwidth : decide (1 ≤ cfgWidth 0) = false := by decide
  rw [stagedLegal, State.applyReset_cfg, hwidth, Bool.false_and, Bool.false_and]

theorem statusWord_applyReset (s : State) : s.applyReset.statusWord = 0 := by
  simp [State.statusWord, State.busy, State.configured, flagAt, ErrorBits.none]

/-- Settles O16: the step is the reset, whose values are those of R47, and CONFIG rejects a width of 0. -/
theorem resetSetsEveryRegister : Obligations.ResetSetsEveryRegister := by
  intro s rest hsched
  exact ⟨_, step_cons hsched, rfl, rfl, rfl, rfl, rfl, rfl, rfl, rfl, rfl, rfl, statusWord_applyReset _, rfl, rfl, rfl,
    exec_config_illegal (stagedLegal_applyReset _)⟩

end Sys2Proof.Machine
end

section
/-! STATUS bit by bit, and what a host access does at each offset. -/

namespace Sys2Proof.Machine

/-! ### STATUS -/

/-- Bit `i` of STATUS, as R32 lays it out. -/
def State.statusBit (s : State) : Nat → Bool
  | 0 => s.pending.isSome
  | 1 => s.active.isSome
  | 2 => s.valid
  | 8 => s.errors.cmd
  | 9 => s.errors.noCfg
  | 10 => s.errors.arg
  | 11 => s.errors.param
  | 12 => s.errors.busy
  | _ => false

theorem getLsbD_statusWord (s : State) (i : Nat) : s.statusWord.getLsbD i = s.statusBit i := by
  simp only [State.statusWord, BitVec.getLsbD_or, getLsbD_flagAt, Nat.reduceLT]
  unfold State.statusBit
  split <;> simp_all [State.busy, State.configured]

/-- Settles O28, from the layout bit by bit. -/
theorem statusWordLayout : Obligations.StatusWordLayout := by
  intro s
  simp only [getLsbD_statusWord]
  refine ⟨rfl, rfl, rfl, fun k hlo hhi => ?_, rfl, rfl, rfl, rfl, rfl, fun k hk => ?_⟩
  · interval_cases k <;> rfl
  · obtain ⟨j, rfl⟩ := Nat.exists_eq_add_of_le' hk
    rfl

/-- Clearing error bits clears those bits of the STATUS word and no other (R38). -/
theorem statusWord_clearErrors (s : State) (v : Word) :
    (s.clearErrors v).statusWord = s.statusWord &&& ~~~(v &&& 0x1F00) := by
  apply BitVec.eq_of_getLsbD_eq
  intro i hi
  rw [BitVec.getLsbD_and, BitVec.getLsbD_not, BitVec.getLsbD_and, getLsbD_statusWord, getLsbD_statusWord]
  unfold State.statusBit
  split <;> simp [hi, ErrorBits.clear]

/-- Settles O29: a STATUS write is never dropped, and clears what it names. -/
theorem statusWriteClearsErrorBits : Obligations.StatusWriteClearsErrorBits := by
  intro s v
  have hwrite : hostWrite 8 (s.params.baseAddr + 0x50) v s = (s.clearErrors v).respond .done := by
    have hreg := hostWrite_reg s .status v
    rwa [State.writeReg, Reg.droppedWhileBusy, Bool.and_false] at hreg
  rw [hwrite]
  exact ⟨statusWord_clearErrors s v, _, _, rfl⟩

/-! ### Reads -/

/-- A read answers the register's current value, unless the register is open and the core is busy (R48, R68). -/
theorem hostRead_response {s : State} {r : Reg} (h : (s.busy && r.openWhileBusy) = false) :
    (hostRead 8 (s.params.baseAddr + r.offset) s).response = .data (s.readReg r) := by
  rw [hostRead_reg, h]
  rfl

theorem hostRead_response_closed (s : State) {r : Reg} (h : r.openWhileBusy = false) :
    (hostRead 8 (s.params.baseAddr + r.offset) s).response = .data (s.readReg r) :=
  hostRead_response (by rw [h, Bool.and_false])

/-- A read of STATE or RESULT: its value while idle, a fresh free value while busy (R48). -/
theorem hostRead_open (s : State) {r : Reg} (h : r.openWhileBusy = true) :
    (s.pending = none → (hostRead 8 (s.params.baseAddr + r.offset) s).response = .data (s.readReg r)) ∧
      (s.pending.isSome = true →
        (hostRead 8 (s.params.baseAddr + r.offset) s).response = .data (Config.busyReadValue s.draws) ∧
          (hostRead 8 (s.params.baseAddr + r.offset) s).draws = s.draws + 1) := by
  refine ⟨fun hidle => hostRead_response (by rw [State.busy, hidle]; rfl), fun hbusy => ?_⟩
  rw [hostRead_reg, State.busy, hbusy, h]
  exact ⟨rfl, rfl⟩

/-- CAP's three fields as one sum (R36). -/
theorem capWord_eq {s : State} (h : s.params.Legal) :
    s.capWord = BitVec.ofNat 64 (s.params.nSlice + 64 * 2 ^ 8 + 1 * 2 ^ 16) := by
  obtain ⟨-, hn⟩ := h
  have hfields : BitVec.ofNat 64 Config.maxWidth <<< 8 ||| BitVec.ofNat 64 Config.version <<< 16 =
      BitVec.ofNat 64 (2 ^ 14 * 5) := by decide
  have hsum := Nat.two_pow_add_eq_or_of_lt (i := 14) (show s.params.nSlice < 2 ^ 14 by omega) 5
  rw [State.capWord, Nat.mod_eq_of_lt (show s.params.nSlice < 256 by omega), BitVec.or_assoc, hfields, BitVec.or_comm,
    ← BitVec.ofNat_or, ← hsum]
  congr 1
  omega

/-- Settles O31: one read per register, and the reserved offsets. -/
theorem readsReturnTheRegister : Obligations.ReadsReturnTheRegister := by
  intro s hlegal
  have hclosed := fun r => hostRead_response_closed s (r := r)
  refine ⟨?_, ?_, fun off hlo hhi hal => by rw [hostRead_reserved s hlo hhi hal]; rfl⟩
  · simp only [List.forall_mem_cons, ← capWord_eq hlegal]
    exact ⟨hclosed .cfg rfl, hclosed .poly rfl, hclosed .init rfl, hclosed .xorout rfl, hclosed .opa rfl, hclosed .opb rfl,
      hclosed .data rfl, hclosed .count rfl, hclosed .status rfl, hclosed .cmd rfl, hclosed .cap rfl, by simp⟩
  · simp only [List.forall_mem_cons]
    exact ⟨hostRead_open s (r := .state) rfl, hostRead_open s (r := .result) rfl, by simp⟩

/-! ### Writes -/

/-- A write of an idle core's register stores (R68). -/
theorem hostWrite_idle {s : State} (h : s.pending = none) (r : Reg) (v : Word) :
    hostWrite 8 (s.params.baseAddr + r.offset) v s = (s.storeReg v r).respond .done := by
  rw [hostWrite_reg, State.writeReg, State.busy, h]
  rfl

/-- Settles O33: one write per register, and the reserved offsets. -/
theorem writesStoreWhileIdle : Obligations.WritesStoreWhileIdle := by
  intro s v hidle
  have hwrite := fun r => hostWrite_idle hidle r v
  exact ⟨hwrite .cfg, hwrite .poly, hwrite .init, hwrite .xorout, hwrite .state, hwrite .opa, hwrite .opb, hwrite .data,
    hwrite .count, hwrite .result, hwrite .cmd, hwrite .cap, fun off hlo hhi hal => hostWrite_reserved s v hlo hhi hal⟩

end Sys2Proof.Machine
end

section
/-! The round trip of a command word: the fields of an assembled word are the command's, and its row's mask check passes. -/

namespace Sys2Proof

theorem Instr.opcode_lt (i : Instr) : i.opcode < 256 := by cases i <;> simp [Instr.opcode]

/-- The fields of an assembled word are the command's (R81, R89). -/
theorem fields_encode {i : Instr} (h : i.WellFormed) :
    opcField (encode i) = i.opcode ∧ argField (encode i) = i.arg ∧ byteField (encode i) = i.byte := by
  obtain ⟨harg, hbyte⟩ := h.fits
  obtain ⟨hopc', harg', hbyte'⟩ := field_toNat (encode i)
  have hopc := i.opcode_lt
  rw [encode_toNat i harg hbyte] at hopc' harg' hbyte'
  omega

/-- Under the mask of the rows that use ARG only, the assembled word of a command without BYTE is its opcode. -/
theorem encode_and_argMask {i : Instr} (h : i.WellFormed) (hbyte : i.byte = 0) :
    encode i &&& 0xFFFFFFFFFFFF80FF = BitVec.ofNat 64 i.opcode := by
  obtain ⟨harg, hbyte'⟩ := h.fits
  have hopc := i.opcode_lt
  rw [mask_arg_iff, encode_toNat i harg hbyte', hbyte, BitVec.toNat_ofNat]
  omega

/-- Under the mask of LUTRD's row, every assembled word is its opcode. -/
theorem encode_and_argByteMask {i : Instr} (h : i.WellFormed) :
    encode i &&& 0xFFFFFFFFFF0080FF = BitVec.ofNat 64 i.opcode := by
  obtain ⟨harg, hbyte⟩ := h.fits
  have hopc := i.opcode_lt
  rw [mask_argByte_iff, encode_toNat i harg hbyte, BitVec.toNat_ofNat]
  omega

/-- An assembled word passes the mask check of its own row (R83, R84). -/
theorem encode_and_mask {i : Instr} (h : i.WellFormed) {row : OpcodeRow} (hrow : opcodeMap[i.opcode]? = some row) :
    encode i &&& row.mask = row.matchBits := by
  cases i
  case process len => cases hrow; exact encode_and_argMask h rfl
  case reflect b => cases hrow; exact encode_and_argMask h rfl
  case foldrd k => cases hrow; exact encode_and_argMask h rfl
  case lutrd s b => cases hrow; exact encode_and_argByteMask h
  all_goals cases hrow; decide

/-- Every command has a row of the opcode map (R84). -/
theorem exists_mapRow : ∀ i : Instr, Laws.MapRow.Statement i
  | .nop => Laws.MapRow.nop
  | .config => Laws.MapRow.config
  | .init => Laws.MapRow.init
  | .zero => Laws.MapRow.zero
  | .process len => Laws.MapRow.process len
  | .finalize => Laws.MapRow.finalize
  | .isvalid => Laws.MapRow.isvalid
  | .combine => Laws.MapRow.combine
  | .zext => Laws.MapRow.zext
  | .clmul => Laws.MapRow.clmul
  | .reflect b => Laws.MapRow.reflect b
  | .lutrd s b => Laws.MapRow.lutrd s b
  | .foldrd k => Laws.MapRow.foldrd k
  | .resrd => Laws.MapRow.resrd

/-- Decoding the assembled word of a well-formed command gives the command back (R82, R89). -/
theorem decode_encode {i : Instr} (h : i.WellFormed) : decode (encode i) = .ok i := by
  obtain ⟨row, hrow, -, -, hform⟩ := exists_mapRow i
  obtain ⟨hopc, harg, hbyte⟩ := fields_encode h
  exact (decode_ok_iff _ _).mpr ⟨row, by rw [hopc, hrow], encode_and_mask h hrow, by rw [harg, hbyte, hform]⟩

end Sys2Proof
end

section
/-! The host's reads, and EXEC: the CMD write, the polls, the core's turn and the last poll as one run. -/

namespace Sys2Proof.Machine

/-- Settles O30: a read changes the bus's answer and the count of draws only. -/
theorem readsHaveNoSideEffect : Obligations.ReadsHaveNoSideEffect := by
  intro size addr s
  obtain ⟨r, d, hr⟩ := hostRead_cases size addr s
  rw [hr]
  exact ⟨⟨s.sameOperands_refl, rfl⟩, rfl⟩

/-- STATUS.BUSY reads 0 while nothing is pending (R33). -/
theorem getLsbD_statusWord_of_idle {s : State} (h : s.pending = none) : s.statusWord.getLsbD 0 = false := by
  rw [getLsbD_statusWord, State.statusBit, h]
  rfl

theorem exec_draws {i : Instr} {s t : State} (ht : exec i s = .next t) : t.draws = s.draws := by
  rcases exec_cases i s with ⟨e, -, he⟩ | ⟨-, act, v, c, r, he, -⟩
  · cases he.symm.trans ht; rfl
  · cases he.symm.trans ht; rfl

/-- The core's turn on the word a host wrote for `i`: what `i` leaves, whatever the polls before it were answered. -/
theorem step_core_encode {i : Instr} (hi : i.WellFormed) {s u : State} (hu : exec i s = .next u) (rest : List Event)
    (r : Response) :
    step { s with pending := some (encode i), schedule := .core :: rest, response := r } =
      .next { u with schedule := rest, response := r } := by
  rw [stepRunsTheDecodedCommand _ rest (encode i) i (.inl rfl) rfl (decode_encode hi)]
  exact (exec_frame_inputs i s u (some (encode i)) rest r s.draws hu).trans (by rw [← exec_draws hu])

/-- EXEC on an idle core leaves what the command leaves, with the STATUS word of that state as the bus's last answer
(R91, R260). -/
theorem run_exec {i : Instr} (hi : i.WellFormed) {s u : State} (hu : exec i s = .next u) (hidle : s.pending = none)
    {polls : Nat} {rest : List Event} (hsched : s.schedule = execEvents s.params.baseAddr polls i ++ rest) :
    core.run (polls + 3) s = .next { u with schedule := rest, response := .data u.statusWord } := by
  obtain ⟨u', hu', -, -, hparams⟩ := exec_ends i s
  obtain rfl : u' = u := Host.Outcome.next.inj (hu'.symm.trans hu)
  have hwrite := step_writeReg s .cmd (encode i) (waitEvents s.params.baseAddr polls ++ rest) hsched hidle
  obtain ⟨r, hpolls⟩ := run_polls polls
    { s with pending := some (encode i), schedule := waitEvents s.params.baseAddr polls ++ rest, response := .done }
    (.core :: rd s.params.baseAddr .status :: rest) (List.append_assoc ..)
  have hcore := step_core_encode hi hu (rd s.params.baseAddr .status :: rest) r
  have hread := step_readStatus { u' with schedule := rd s.params.baseAddr .status :: rest, response := r } rest
    (by rw [← hparams])
  exact (run_succ hwrite _).trans ((run_add hpolls 2).trans ((run_succ hcore 1).trans (run_succ hread 0)))

/-- Settles O10: the run of EXEC, and what it answers. -/
theorem execPseudoInstructionPerformsTheCommand : Obligations.ExecPseudoInstructionPerformsTheCommand := by
  intro s i polls rest hi hidle hsched
  obtain ⟨u, hu, hend, -⟩ := exec_ends i s
  exact ⟨u, _, hu, run_exec hi hu hidle hsched, ⟨u.sameOperands_refl, rfl⟩, rfl, rfl, getLsbD_statusWord_of_idle hend⟩

end Sys2Proof.Machine
end

section
/-! FEED: the groups of a message, each a DATA write and an EXEC of PROCESS, as one run. -/

namespace Sys2Proof.Machine

/-! ### PROC over several byte strings -/

theorem proc_nil {a : Active} (h : a.Legal) (r : Word) : proc a r [] = sig a r := enc_dec h r

/-- Processing two strings one after the other is processing their concatenation (R116). -/
theorem proc_append {a : Active} (h : a.Legal) (r : Word) (xs ys : List Byte) :
    proc a (proc a r xs) ys = proc a r (xs ++ ys) := by
  rw [proc, proc, dec_enc h (foldl_byteStep_lt h (dec_lt h r) xs), ← List.foldl_append, proc]

/-- Processing several strings in order leaves the significant field that their concatenation leaves. -/
theorem sig_foldl_proc {a : Active} (h : a.Legal) (r : Word) (gs : List (List Byte)) :
    sig a (gs.foldl (proc a) r) = proc a r gs.flatten := by
  induction gs generalizing r with
  | nil => exact (proc_nil h r).symm
  | cons g gs ih => rw [List.foldl_cons, ih, proc_append h, List.flatten_cons]

/-! ### The groups -/

theorem flatten_byteGroups (fuel : Nat) (ds : List Byte) (h : ds.length ≤ fuel) : (byteGroups fuel ds).flatten = ds := by
  induction fuel, ds using byteGroups.induct with
  | case1 ds => exact (List.eq_nil_of_length_eq_zero (Nat.le_zero.mp h)).symm
  | case2 => rfl
  | case3 fuel d ds ih =>
    have hrest : ((d :: ds).drop 8).length ≤ fuel := by rw [List.length_drop]; omega
    rw [byteGroups, List.flatten_cons, ih hrest, List.take_append_drop]

theorem length_le_of_mem_byteGroups {fuel : Nat} {ds g : List Byte} (h : g ∈ byteGroups fuel ds) : g.length ≤ 8 := by
  induction fuel, ds using byteGroups.induct with
  | case1 ds => cases h
  | case2 => cases h
  | case3 fuel d ds ih =>
    rcases List.mem_cons.mp h with rfl | hmem
    · exact List.length_take_le ..
    · exact ih hmem

/-! ### The runs -/

theorem wellFormed_process {len : Nat} (h : len ≤ 8) : (Instr.process len).WellFormed :=
  decide_eq_true (by omega)

/-- PROCESS, on an idle core, of a group that has been packed into DATA (R65, R160). -/
theorem exec_process_packBytes {s : State} {a : Active} (hinv : s.Inv) (ha : s.active = some a) (hidle : s.pending = none)
    {g : List Byte} (hg : g.length ≤ 8) (hdata : s.data = packBytes g) :
    exec (.process g.length) s = .next { s with crcState := proc a s.crcState g } := by
  rw [processUpdatesStateByteByByte s a g.length hinv ha hg, hdata, dataBytes_packBytes g hg, hidle]
  rfl

/-- One group of FEED processes its bytes; but for STATE, DATA and the bus's last answer the core is as it was (R91). -/
theorem run_feedGroup {s : State} {a : Active} (hinv : s.Inv) (ha : s.active = some a) (hidle : s.pending = none)
    {g : List Byte} (hg : g.length ≤ 8) {polls : Nat} {rest : List Event}
    (hsched : s.schedule = feedGroup s.params.baseAddr polls g ++ rest) :
    ∃ resp, core.run (polls + 4) s =
      .next { s with data := packBytes g, crcState := proc a s.crcState g, schedule := rest, response := resp } := by
  have hwrite := step_writeReg s .data (packBytes g) (execEvents s.params.baseAddr polls (.process g.length) ++ rest)
    hsched hidle
  have hexec := exec_process_packBytes (s := { s with
      data := packBytes g, schedule := execEvents s.params.baseAddr polls (.process g.length) ++ rest, response := .done })
    (hinv.of_eq rfl rfl rfl rfl) ha hidle hg rfl
  exact ⟨_, (run_succ hwrite _).trans (run_exec (wellFormed_process hg) hexec hidle rfl)⟩

/-- The groups of FEED process their bytes one after another. -/
theorem run_feedGroups {s : State} {a : Active} (hinv : s.Inv) (ha : s.active = some a) (hidle : s.pending = none)
    {gs : List (List Byte)} (hgs : ∀ g ∈ gs, g.length ≤ 8) {polls : Nat → Nat} {rest : List Event}
    (hsched : s.schedule = feedGroups s.params.baseAddr polls gs ++ rest) :
    ∃ data resp, core.run (feedGroups s.params.baseAddr polls gs).length s =
      .next { s with data := data, crcState := gs.foldl (proc a) s.crcState, schedule := rest, response := resp } := by
  induction gs generalizing s polls with
  | nil =>
    obtain rfl : s.schedule = rest := hsched
    exact ⟨s.data, s.response, rfl⟩
  | cons g gs ih =>
    obtain ⟨hg, hgs⟩ := List.forall_mem_cons.mp hgs
    rw [feedGroups, List.append_assoc] at hsched
    obtain ⟨resp, hgroup⟩ := run_feedGroup hinv ha hidle hg hsched
    rw [feedGroups, List.length_append, feedGroup_length, run_add hgroup]
    exact ih (s := { s with
        data := packBytes g, crcState := proc a s.crcState g
        schedule := feedGroups s.params.baseAddr (fun k => polls (k + 1)) gs ++ rest, response := resp })
      (hinv.of_eq rfl rfl rfl rfl) ha hidle hgs rfl

/-- FEED on a configured idle core: only DATA, STATE and the bus's last answer change, and STATE's significant field is PROC
of the whole string (R91, R161). -/
theorem run_feed {s : State} {a : Active} (hinv : s.Inv) (ha : s.active = some a) (hidle : s.pending = none)
    {ds : List Byte} {polls : Nat → Nat} {rest : List Event}
    (hsched : s.schedule = feedEvents s.params.baseAddr polls ds ++ rest) :
    ∃ data crc resp, core.run (feedEvents s.params.baseAddr polls ds).length s =
      .next { s with data := data, crcState := crc, schedule := rest, response := resp } ∧
      sig a crc = proc a s.crcState ds := by
  have ⟨_, _, hlegal, _⟩ := hinv
  obtain ⟨data, resp, hrun⟩ := run_feedGroups hinv ha hidle (fun g => length_le_of_mem_byteGroups) hsched
  refine ⟨data, _, resp, hrun, ?_⟩
  rw [sig_foldl_proc (hlegal a ha), flatten_byteGroups ds.length ds le_rfl]

/-- Settles O11: the run of FEED, whose groups are the whole string. -/
theorem feedProcessesTheWholeMessage : Obligations.FeedProcessesTheWholeMessage := by
  intro s a ds polls rest hinv ha hidle hsched
  obtain ⟨data, crc, resp, hrun, hcrc⟩ := run_feed hinv ha hidle hsched
  exact ⟨_, hrun, hcrc, ha, hidle, rfl, rfl⟩

end Sys2Proof.Machine
end

section
/-! The opcode map as fields: every word is one row or illegal, and an illegal word raises ERR_CMD at the core's turn. -/

namespace Sys2Proof

/-- Settles O2, by the round trip of a command word. -/
theorem decodeOfEncodeIsTheCommand : Obligations.DecodeOfEncodeIsTheCommand := fun _ => decode_encode

/-- Settles O1: each word is looked up in the map. -/
theorem specWordsDecode : Obligations.SpecWordsDecode := by
  unfold Obligations.SpecWordsDecode
  decide

/-! ### The rows of the map -/

/-- ARG as the commands with opcode `opc` use it: 0 outside PROCESS, REFLECT, LUTRD and FOLDRD (R83, R84). -/
def usedArg (opc arg : Nat) : Nat := if opc ∈ [0x04, 0x0A, 0x0B, 0x0C] then arg else 0

/-- BYTE as the commands with opcode `opc` use it: 0 outside LUTRD (R83, R84). -/
def usedByte (opc byte : Nat) : Nat := if opc = 0x0B then byte else 0

/-- A row of the opcode map stands at the place of its opcode. -/
theorem opc_eq_of_getElem? {k : Nat} {row : OpcodeRow} (h : opcodeMap[k]? = some row) : row.opc = k := by
  have hplace : ∀ j : Fin 14, opcodeMap[j].opc = j := by decide
  obtain ⟨hk, rfl⟩ := List.getElem?_eq_some_iff.mp h
  exact hplace ⟨k, hk⟩

theorem getElem?_opc {row : OpcodeRow} (h : row ∈ opcodeMap) : opcodeMap[row.opc]? = some row := by
  obtain ⟨k, hk⟩ := List.mem_iff_getElem?.mp h
  rwa [opc_eq_of_getElem? hk]

/-- The opcodes from 0 to 0x0D have a row, and no other (R84, R86). -/
theorem exists_row_iff (opc : Nat) : (∃ row ∈ opcodeMap, row.opc = opc) ↔ opc ≤ 0x0D := by
  constructor
  · have hopc : ∀ row ∈ opcodeMap, row.opc ≤ 0x0D := by decide
    rintro ⟨row, hmem, rfl⟩
    exact hopc row hmem
  · intro hle
    have hlt : opc < opcodeMap.length := Nat.lt_succ_of_le hle
    exact ⟨opcodeMap[opc], List.getElem_mem hlt, opc_eq_of_getElem? (List.getElem?_eq_getElem hlt)⟩

/-- A row builds the command of its opcode from the fields it uses. -/
theorem form_fields {row : OpcodeRow} (h : row ∈ opcodeMap) (arg byte : Nat) :
    (row.form arg byte).opcode = row.opc ∧ (row.form arg byte).arg = usedArg row.opc arg ∧
      (row.form arg byte).byte = usedByte row.opc byte := by
  simp only [opcodeMap, List.mem_cons, List.not_mem_nil, or_false] at h
  rcases h with rfl | rfl | rfl | rfl | rfl | rfl | rfl | rfl | rfl | rfl | rfl | rfl | rfl | rfl <;>
    exact ⟨rfl, rfl, rfl⟩

/-- A command whose operands fit their fields is well formed. -/
theorem wellFormed_of_fits {i : Instr} (harg : i.arg < 128) (hbyte : i.byte < 256) : i.WellFormed := by
  cases i
  case lutrd s b => exact Bool.and_eq_true_iff.mpr ⟨decide_eq_true harg, decide_eq_true hbyte⟩
  case process len => exact decide_eq_true harg
  case reflect b => exact decide_eq_true harg
  case foldrd k => exact decide_eq_true harg
  all_goals rfl

/-- The three masks of the opcode map, each under its opcodes; the match bits are the opcode (R84). -/
theorem opcodeMap_masks : ∀ row ∈ opcodeMap, row.matchBits.toNat = row.opc ∧
    ((row.opc ∉ [0x04, 0x0A, 0x0B, 0x0C] ∧ row.mask = 0xFFFFFFFFFFFFFFFF) ∨
      (row.opc ∈ [0x04, 0x0A, 0x0C] ∧ row.mask = 0xFFFFFFFFFFFF80FF) ∨
      (row.opc = 0x0B ∧ row.mask = 0xFFFFFFFFFF0080FF)) := by
  decide

/-- A word passes a row's mask check exactly when its value is the opcode and the fields that the row uses (R83, R84). -/
theorem rowMatches_iff {row : OpcodeRow} (h : row ∈ opcodeMap) (c : Word) :
    c &&& row.mask = row.matchBits ↔
      c.toNat = row.opc + usedArg row.opc (argField c) * 2 ^ 8 + usedByte row.opc (byteField c) * 2 ^ 16 := by
  obtain ⟨-, harg, hbyte⟩ := field_toNat c
  obtain ⟨hmatch, ⟨hopc, hmask⟩ | ⟨hopc, hmask⟩ | ⟨hopc, hmask⟩⟩ := opcodeMap_masks row h
  · have hlutrd : row.opc ≠ 0x0B := fun hb => hopc (by rw [hb]; decide)
    rw [hmask, mask_none_iff, ← BitVec.toNat_inj, hmatch, usedArg, if_neg hopc, usedByte, if_neg hlutrd]
    simp
  · have hlutrd : row.opc ≠ 0x0B := fun hb => absurd (hb ▸ hopc) (by decide)
    have huses : row.opc ∈ [0x04, 0x0A, 0x0B, 0x0C] := by simp at hopc ⊢; omega
    rw [hmask, mask_arg_iff, hmatch, usedArg, if_pos huses, usedByte, if_neg hlutrd, harg]
    simp
  · have huses : row.opc ∈ [0x04, 0x0A, 0x0B, 0x0C] := by rw [hopc]; decide
    rw [hmask, mask_argByte_iff, hmatch, usedArg, if_pos huses, usedByte, if_pos hopc, harg, hbyte]

/-- A word that passes a row's mask check has the row's opcode: no mask leaves out a bit of OPC. -/
theorem opcField_of_rowMatches {row : OpcodeRow} (h : row ∈ opcodeMap) {c : Word} (hc : c &&& row.mask = row.matchBits) :
    opcField c = row.opc := by
  have hvalue := (rowMatches_iff h c).mp hc
  have hrange := (exists_row_iff row.opc).mp ⟨row, h, rfl⟩
  rw [(field_toNat c).1]
  omega

/-! ### Every word -/

/-- A word is legal exactly when some row's mask check passes, and it stands for that row's command. -/
theorem decode_ok_iff_rowMatches (c : Word) (i : Instr) :
    decode c = .ok i ↔ ∃ row ∈ opcodeMap, c &&& row.mask = row.matchBits ∧ i = row.form (argField c) (byteField c) := by
  rw [decode_ok_iff]
  constructor
  · rintro ⟨row, hrow, hmatch, hform⟩
    exact ⟨row, List.mem_of_getElem? hrow, hmatch, hform⟩
  · rintro ⟨row, hmem, hmatch, hform⟩
    exact ⟨row, by rw [opcField_of_rowMatches hmem hmatch, getElem?_opc hmem], hmatch, hform⟩

/-- The command a word decodes to is well formed and assembles to the same word. -/
theorem encode_of_decode {c : Word} {i : Instr} (h : decode c = .ok i) : i.WellFormed ∧ encode i = c := by
  obtain ⟨row, hmem, hmatch, rfl⟩ := (decode_ok_iff_rowMatches c i).mp h
  obtain ⟨hopc, harg, hbyte⟩ := form_fields hmem (argField c) (byteField c)
  have hargLt : (row.form (argField c) (byteField c)).arg < 128 := by
    have := argField_lt c
    rw [harg, usedArg]; split <;> omega
  have hbyteLt : (row.form (argField c) (byteField c)).byte < 256 := by
    have := byteField_lt c
    rw [hbyte, usedByte]; split <;> omega
  refine ⟨wellFormed_of_fits hargLt hbyteLt, BitVec.eq_of_toNat_eq ?_⟩
  rw [encode_toNat _ hargLt hbyteLt, hopc, harg, hbyte, (rowMatches_iff hmem c).mp hmatch]

/-- Settles O3: a row's mask check fixes the word's opcode, and so the row's place in the map. -/
theorem everyWordIsOneRowOrIllegal : Obligations.EveryWordIsOneRowOrIllegal := by
  refine ⟨decode_ok_iff_rowMatches, fun c j k row row' hj hk hmatch hmatch' => ?_, fun c i => encode_of_decode⟩
  calc j = row.opc := (opc_eq_of_getElem? hj).symm
    _ = opcField c := (opcField_of_rowMatches (List.mem_of_getElem? hj) hmatch).symm
    _ = row'.opc := opcField_of_rowMatches (List.mem_of_getElem? hk) hmatch'
    _ = k := opc_eq_of_getElem? hk

/-- A word is legal exactly when its opcode has a row and its value is the opcode and the fields its commands use. -/
theorem decode_ok_iff_fields (c : Word) :
    (∃ i, decode c = .ok i) ↔ opcField c ≤ 0x0D ∧
      c.toNat = opcField c + usedArg (opcField c) (argField c) * 2 ^ 8 + usedByte (opcField c) (byteField c) * 2 ^ 16 := by
  constructor
  · rintro ⟨i, hi⟩
    obtain ⟨row, hmem, hmatch, -⟩ := (decode_ok_iff_rowMatches c i).mp hi
    rw [opcField_of_rowMatches hmem hmatch]
    exact ⟨(exists_row_iff _).mp ⟨row, hmem, rfl⟩, (rowMatches_iff hmem c).mp hmatch⟩
  · rintro ⟨hopc, hvalue⟩
    obtain ⟨row, hmem, hrow⟩ := (exists_row_iff _).mpr hopc
    rw [← hrow] at hvalue
    exact ⟨_, (decode_ok_iff_rowMatches c _).mpr ⟨row, hmem, (rowMatches_iff hmem c).mpr hvalue, rfl⟩⟩

/-- A word is the sum of its five fields: OPC, ARG, bit 15, BYTE and the bits from 24 up (R81). -/
theorem toNat_eq_sum_fields (n : Nat) :
    n = n % 2 ^ 8 + n / 2 ^ 8 % 2 ^ 7 * 2 ^ 8 + n / 2 ^ 15 % 2 * 2 ^ 15 + n / 2 ^ 16 % 2 ^ 8 * 2 ^ 16 + n / 2 ^ 24 * 2 ^ 24 := by
  omega

/-- Settles O4: the value of a legal word is the sum of the fields its commands use, so one of the other fields of an illegal
word is not 0. -/
theorem illegalWordsAreTheReservedEncodings : Obligations.IllegalWordsAreTheReservedEncodings := by
  intro c
  obtain ⟨hopc, harg, hbyte⟩ := field_toNat c
  have hbit : c.getLsbD 15 = true ↔ c.toNat / 2 ^ 15 % 2 = 1 := by
    rw [← BitVec.testBit_toNat, Nat.testBit_eq_decide_div_mod_eq, decide_eq_true_eq]
  have hhigh : 2 ^ 24 ≤ c.toNat ↔ c.toNat / 2 ^ 24 ≠ 0 := by omega
  have hsum := toNat_eq_sum_fields c.toNat
  have hbit15 : c.toNat / 2 ^ 15 % 2 < 2 := Nat.mod_lt _ (by decide)
  rw [decode_error_iff, decode_ok_iff_fields, hbit, hhigh, hopc, harg, hbyte, usedArg, usedByte]
  clear hopc harg hbyte hbit hhigh
  generalize c.toNat % 2 ^ 8 = opc, c.toNat / 2 ^ 8 % 2 ^ 7 = arg, c.toNat / 2 ^ 15 % 2 = bit15,
    c.toNat / 2 ^ 16 % 2 ^ 8 = byte, c.toNat / 2 ^ 24 = high at hsum hbit15 ⊢
  by_cases hlutrd : opc = 0x0B
  · have huses : 0x0B ∈ [0x04, 0x0A, 0x0B, 0x0C] := by decide
    simp only [hlutrd, huses, if_true, not_true, ne_eq, and_false, or_false]
    omega
  · by_cases huses : opc ∈ [0x04, 0x0A, 0x0B, 0x0C]
    · simp only [hlutrd, huses, if_true, if_false, not_true, not_false_eq_true, ne_eq, and_false, and_true, or_false]
      omega
    · simp only [hlutrd, huses, if_false, not_false_eq_true, ne_eq, and_true]
      omega

end Sys2Proof

namespace Sys2Proof.Machine

theorem performPending_error {s : State} {c : Word} {e : DecodeError} (h : s.pending = some c) (hd : decode c = .error e) :
    performPending s = .next (s.failed .cmd) := by
  simp [performPending, h, hd, raiseError_eq]

/-- An opcode without a row, or a failed mask check of the opcode's row, leaves no command to decode (R85, R220). -/
theorem decode_error_of_illegal {c : Word}
    (h : 0x0D < opcField c ∨ ∃ row ∈ opcodeMap, row.opc = opcField c ∧ c &&& row.mask ≠ row.matchBits) :
    ∃ e, decode c = .error e := by
  rw [decode_error_iff, decode_ok_iff_fields]
  rintro ⟨hopc, hvalue⟩
  rcases h with hlarge | ⟨row, hmem, hrow, hne⟩
  · omega
  · rw [← hrow] at hvalue
    exact hne ((rowMatches_iff hmem c).mpr hvalue)

/-- Every opcode has an illegal word: the one with bit 15 set (R83). -/
theorem exists_illegal_word {k : Nat} (hk : k < 256) : ∃ c : Word, opcField c = k ∧ ∃ e, decode c = .error e := by
  have hvalue : (BitVec.ofNat 64 (k + 2 ^ 15)).toNat = k + 2 ^ 15 := by rw [BitVec.toNat_ofNat]; omega
  refine ⟨BitVec.ofNat 64 (k + 2 ^ 15), ?_, (illegalWordsAreTheReservedEncodings _).mpr (.inr (.inr (.inl ?_)))⟩
  · rw [(field_toNat _).1, hvalue]; omega
  · rw [← BitVec.testBit_toNat, hvalue, Nat.testBit_eq_decide_div_mod_eq, decide_eq_true_eq]; omega

/-- Settles O24: the decoder stops an illegal word, and the checks after it raise other errors. -/
theorem illegalWordRaisesErrCmd : Obligations.IllegalWordRaisesErrCmd := by
  refine ⟨fun s rest c hturn hpending hillegal => ?_, fun k => exists_illegal_word, fun i s t ht => ?_⟩
  · obtain ⟨e, he⟩ := decode_error_of_illegal hillegal
    rw [step_coreTurn hturn]
    exact performPending_error hpending he
  · rcases failsWith_or_checksPass i s with ⟨e, hfail⟩ | hpass
    · obtain rfl : s.failed e = t := Host.Outcome.next.inj ((exec_of_failsWith hfail).symm.trans ht)
      rcases hfail with ⟨rfl, -⟩ | ⟨rfl, -⟩ | ⟨rfl, -⟩ <;> rfl
    · obtain ⟨a, ha⟩ := exists_active_of_checksPass hpass
      obtain rfl : s.after a i = t := Host.Outcome.next.inj ((exec_of_checksPass hpass ha).symm.trans ht)
      rfl

/-- Settles O25: the checks as `State.FailsWith` and `State.ChecksPass` list them. -/
theorem checksRunInOrder : Obligations.ChecksRunInOrder := by
  intro i s
  refine ⟨fun hneeds hnone => exec_of_failsWith (.inl ⟨rfl, hneeds, hnone⟩),
    fun hneeds hrange => exec_of_failsWith (.inr (.inl ⟨rfl, hneeds, hrange⟩)), fun hneeds hrange hstaged => ?_⟩
  have hpass : s.ChecksPass i := ⟨hneeds, hrange, hstaged⟩
  obtain ⟨a, ha⟩ := exists_active_of_checksPass hpass
  exact ⟨_, exec_of_checksPass hpass ha, rfl, rfl⟩

end Sys2Proof.Machine
end

section
/-! SETUP and COMPUTE, each as one run. -/

namespace Sys2Proof.Machine

/-! ### SETUP -/

/-- The CFG word that SETUP writes for `a` (R91). -/
def setupCfg (a : Active) : Word := BitVec.ofNat 64 a.w + flagAt a.rin 8 + flagAt a.rout 9

/-- What CFG stores of SETUP's word has the three fields of the parametrisation (R21, R22). -/
theorem setupCfg_fields {a : Active} (h : a.w ≤ 64) :
    cfgWidth (setupCfg a &&& cfgWritable) = a.w ∧ cfgRin (setupCfg a &&& cfgWritable) = a.rin ∧
      cfgRout (setupCfg a &&& cfgWritable) = a.rout := by
  have hfields : ∀ w < 65, ∀ rin rout,
      let stored := (BitVec.ofNat 64 w + flagAt rin 8 + flagAt rout 9) &&& cfgWritable
      cfgWidth stored = w ∧ cfgRin stored = rin ∧ cfgRout stored = rout := by decide
  exact hfields a.w (Nat.lt_succ_of_le h) a.rin a.rout

/-- `s` after SETUP's four writes. -/
def State.staged (s : State) (a : Active) : State :=
  { s with cfg := setupCfg a &&& cfgWritable, poly := a.p, initReg := a.i, xorout := a.x, response := .done }

/-- SETUP's writes stage the parametrisation. -/
theorem stagedActive_staged {a : Active} (h : a.Legal) (s : State) : stagedActive (s.staged a) = a := by
  have ⟨_, hw, _⟩ := h
  obtain ⟨hwidth, hrin, hrout⟩ := setupCfg_fields hw
  rw [stagedActive, State.staged, hwidth, hrin, hrout]

/-- CONFIG on a staged legal parametrisation activates it (R152). -/
theorem exec_config_staged {a : Active} (h : a.Legal) (s : State) :
    exec .config (s.staged a) = .next ((s.staged a).done (some a) s.valid (initVal a) s.result) := by
  have hactive := stagedActive_staged h s
  have hlegal : stagedLegal (s.staged a) = true := (stagedLegal_iff _).mpr (hactive.symm ▸ h)
  rw [exec_config_legal hlegal, hactive]
  rfl

/-- The four writes of SETUP on an idle core. -/
theorem run_staging {s : State} {a : Active} (hidle : s.pending = none) {rest : List Event}
    (hsched : s.schedule = wr s.params.baseAddr .cfg (setupCfg a) :: wr s.params.baseAddr .poly a.p ::
      wr s.params.baseAddr .init a.i :: wr s.params.baseAddr .xorout a.x :: rest) :
    core.run 4 s = .next (State.staged { s with schedule := rest } a) := by
  have hcfg := step_writeReg s .cfg (setupCfg a) _ hsched hidle
  have hpoly := step_writeReg { s with
      cfg := setupCfg a &&& cfgWritable, response := .done
      schedule := wr s.params.baseAddr .poly a.p :: wr s.params.baseAddr .init a.i :: wr s.params.baseAddr .xorout a.x :: rest }
    .poly a.p _ rfl hidle
  have hinit := step_writeReg { s with
      cfg := setupCfg a &&& cfgWritable, poly := a.p, response := .done
      schedule := wr s.params.baseAddr .init a.i :: wr s.params.baseAddr .xorout a.x :: rest } .init a.i _ rfl hidle
  have hxorout := step_writeReg { s with
      cfg := setupCfg a &&& cfgWritable, poly := a.p, initReg := a.i, response := .done
      schedule := wr s.params.baseAddr .xorout a.x :: rest } .xorout a.x _ rfl hidle
  exact (run_succ hcfg 3).trans ((run_succ hpoly 2).trans ((run_succ hinit 1).trans (run_succ hxorout 0)))

/-- Settles O12: the staging writes, then EXEC of CONFIG. -/
theorem setupActivatesTheParametrisation : Obligations.SetupActivatesTheParametrisation := by
  intro s a polls rest hlegal hidle hsched
  have hstaging := run_staging (a := a) (rest := execEvents s.params.baseAddr polls .config ++ rest) hidle hsched
  have hconfig := exec_config_staged hlegal { s with schedule := execEvents s.params.baseAddr polls .config ++ rest }
  have hexec := run_exec (i := .config) rfl hconfig hidle rfl
  rw [show polls + 7 = 4 + (polls + 3) by omega, run_add hstaging]
  exact ⟨_, hexec, rfl, rfl, rfl, rfl, rfl, rfl, rfl, rfl⟩

/-! ### COMPUTE -/

/-- FIN reads the significant field only (R118). -/
theorem fin_congr {a : Active} (h : a.Legal) {r q : Word} (hs : sig a r = sig a q) : fin a r = fin a q := by
  rw [fin, fin, dec_eq_of_sig_eq h hs]

/-- A read of RESULT on an idle core answers it and changes nothing else (R68). -/
theorem step_readResult {s : State} {rest : List Event} (hsched : s.schedule = rd s.params.baseAddr .result :: rest)
    (hidle : s.pending = none) : step s = .next { s with schedule := rest, response := .data s.result } := by
  have hbusy : State.busy { s with schedule := rest } = false := by rw [State.busy, hidle]; rfl
  have hread := hostRead_reg { s with schedule := rest } .result
  rw [hbusy] at hread
  rw [step_cons hsched]
  exact congrArg _ hread

/-- INIT and FEED on a configured idle core leave PROC of the message from INITVAL in STATE's significant field (R91, R119). -/
theorem run_initFeed {s : State} {a : Active} (hinv : s.Inv) (ha : s.active = some a) (hidle : s.pending = none)
    {ds : List Byte} {initPolls : Nat} {polls : Nat → Nat} {rest : List Event}
    (hsched : s.schedule = execEvents s.params.baseAddr initPolls .init ++ (feedEvents s.params.baseAddr polls ds ++ rest)) :
    ∃ data crc resp, core.run (initPolls + 3 + (feedEvents s.params.baseAddr polls ds).length) s =
      .next { s with data := data, crcState := crc, schedule := rest, response := resp } ∧
      sig a crc = proc a (initVal a) ds := by
  have hexec : exec .init s = .next { s with crcState := initVal a } := by rw [exec_init_some ha, State.done, hidle]
  rw [run_add (run_exec rfl hexec hidle hsched)]
  exact run_feed (s := { s with
      crcState := initVal a, schedule := feedEvents s.params.baseAddr polls ds ++ rest
      response := .data (State.statusWord { s with crcState := initVal a }) })
    (hinv.of_eq rfl rfl rfl rfl) ha hidle rfl

/-- FINALIZE and the read of RESULT on a configured idle core answer FIN of STATE (R91, R165). -/
theorem run_finalizeRead {s : State} {a : Active} (ha : s.active = some a) (hidle : s.pending = none) {polls : Nat}
    {rest : List Event}
    (hsched : s.schedule = execEvents s.params.baseAddr polls .finalize ++ rd s.params.baseAddr .result :: rest) :
    core.run (polls + 3 + 1) s = .next { s with
      result := fin a s.crcState, schedule := rest, response := .data (fin a s.crcState) } := by
  have hexec : exec .finalize s = .next { s with result := fin a s.crcState } := by
    rw [exec_finalize_some ha, State.done, hidle]
  have hread := step_readResult (s := { s with
      result := fin a s.crcState, schedule := rd s.params.baseAddr .result :: rest
      response := .data (State.statusWord { s with result := fin a s.crcState }) }) rfl hidle
  rw [run_add (run_exec rfl hexec hidle hsched), run_succ hread, run_zero]

/-- Settles O13: the runs of INIT, FEED and FINALIZE, then the read of RESULT. -/
theorem computeReturnsTheChecksum : Obligations.ComputeReturnsTheChecksum := by
  intro s a ds polls lastPolls rest hinv ha hidle hsched
  have ⟨_, _, hlegals, _⟩ := hinv
  have hlegal := hlegals a ha
  have hlength : (computeEvents s.params.baseAddr polls lastPolls ds).length =
      polls 0 + 3 + (feedEvents s.params.baseAddr (fun k => polls (k + 1)) ds).length + (lastPolls + 3 + 1) := by
    simp only [computeEvents, messageEvents, List.length_append, execEvents_length, List.length_singleton, Nat.add_assoc]
  simp only [computeEvents, messageEvents, List.append_assoc] at hsched
  obtain ⟨data, crc, resp, hmessage, hcrc⟩ := run_initFeed hinv ha hidle hsched
  have hread := run_finalizeRead (s := { s with
      data := data, crcState := crc, response := resp
      schedule := execEvents s.params.baseAddr lastPolls .finalize ++ rd s.params.baseAddr .result :: rest })
    ha hidle rfl
  have hfin : fin a crc = fin a (proc a (initVal a) ds) := fin_congr hlegal (by rw [hcrc, sig_proc hlegal])
  rw [hlength, run_add hmessage]
  exact ⟨_, hread, congrArg _ hfin, ha, rfl, hidle, rfl⟩

end Sys2Proof.Machine
end

section
/-! The bit primitives and the ring of polynomials mod G: shifts and reflection (R102 to R104), the remainder (R107), the
bit-serial product (R108). -/

namespace Sys2Proof.Machine

/-! ### Bit primitives -/

/-- Settles O47, by the sign of the count and the bound 64. -/
theorem generalisedShiftEquations : Obligations.GeneralisedShiftEquations := by
  intro v s
  constructor
  · by_cases hneg : s < 0
    · simp [gshr, hneg]
    · simp [gshl, hneg]
  · by_cases hneg : s < 0
    · simp [gshr, hneg]
    · rcases (Int.not_lt.mp hneg).eq_or_lt with rfl | hpos
      · simp [gshr, gshl]
      · simp [gshr, gshl, hneg, hpos]

/-- A reflected register value is the reflected number: its bits fit the register. -/
theorem toNat_reflect (v : Word) {b : Nat} (hb : b ≤ 64) : (reflect v b).toNat = reflectNat v.toNat b := by
  have hlt : reflectNat v.toNat b < 2 ^ 64 := (reflectNat_lt _ _).trans_le (Nat.pow_le_pow_right (by omega) hb)
  rw [reflect, BitVec.toNat_ofNat, Nat.mod_eq_of_lt hlt]

theorem reflectNat_reflectNat_of_lt {v b : Nat} (h : v < 2 ^ b) : reflectNat (reflectNat v b) b = v := by
  rw [reflectNat_reflectNat, Nat.mod_eq_of_lt h]

theorem reflect_xor (v w : Word) (b : Nat) : reflect (v ^^^ w) b = reflect v b ^^^ reflect w b := by
  rw [reflect, BitVec.toNat_xor, reflectNat_xor, BitVec.ofNat_xor, reflect, reflect]

theorem reflect_reflect {v : Word} {b : Nat} (hb : b ≤ 64) (hv : v.toNat < 2 ^ b) : reflect (reflect v b) b = v := by
  rw [reflect, toNat_reflect v hb, reflectNat_reflectNat_of_lt hv, BitVec.ofNat_toNat, BitVec.setWidth_eq]

theorem reflect_mask {b : Nat} (hb : b ≤ 64) : reflect (mask b) b = mask b := by
  apply BitVec.eq_of_getLsbD_eq
  intro i hi
  rw [getLsbD_reflect, getLsbD_mask hb, getLsbD_mask hb]
  by_cases hib : i < b
  · simp [hi, hib, show b - 1 - i < b by omega]
  · simp [hib]

/-- Settles O48: the four laws, one lemma each. -/
theorem reflectionLaws : Obligations.ReflectionLaws := by
  intro b v w _ hb hv _
  refine ⟨reflect_reflect hb hv, reflect_xor v w b, ?_, reflect_mask hb⟩
  exact congrArg (BitVec.ofNat 64) (reflectNat_zero b)

/-! ### The remainder mod G -/

theorem zero_mulX (e : Nat) : mulX 0 e = 0 := Nat.zero_shiftLeft e

/-- What is left of a value after a multiple of G, if its degree is below W, is the remainder. -/
theorem eq_modG_of_multiple {a : Active} (h : a.Legal) {v q r : Nat} (hr : r < 2 ^ a.w)
    (hv : v = clmul q (gen a) ^^^ r) : r = modG a v := by
  rw [hv, modG_xor, modG_clmul_gen h, Nat.zero_xor, modG_of_lt a hr]

theorem xpow_zero {a : Active} (h : a.Legal) : xpow a 0 = 1 :=
  modG_of_lt a (Nat.one_lt_two_pow (Nat.one_le_iff_ne_zero.mp h.1))

/-- Settles O49: existence by long division, uniqueness because a multiple of G reduces to 0. -/
theorem modGIsTheUniqueRemainder : Obligations.ModGIsTheUniqueRemainder := by
  intro a h
  refine ⟨fun v => ⟨modG_lt h v, modG_multiple a v⟩, fun _ _ _ => eq_modG_of_multiple h, fun _ _ => rfl, fun e => ?_,
    xpow_zero h⟩
  rw [xpow, mulX, Nat.one_shiftLeft]

theorem mulmod_comm (a : Active) (u v : Nat) : mulmod a u v = mulmod a v u := by rw [mulmod, clmul_comm, mulmod]

/-! ### The bit-serial product -/

/-- A turn of the bit-serial loop is a bit step with no input, then the addition of `v` where `u` has a bit. -/
theorem mulSerialFrom_succ (a : Active) (u v n r : Nat) :
    mulSerialFrom a u v (n + 1) r = mulSerialFrom a u v n (bitStep a r false ^^^ if u.testBit n then v else 0) := by
  rw [mulSerialFrom, bitStep, Bool.bne_false]
  cases u.testBit n <;> simp

theorem bitStep_false_xor_lt {a : Active} (h : a.Legal) {v : Nat} (hv : v < 2 ^ a.w) (r : Nat) (b : Bool) :
    (bitStep a r false ^^^ if b then v else 0) < 2 ^ a.w := by
  apply Nat.xor_lt_two_pow (bitStep_lt h r false)
  cases b
  · exact Nat.two_pow_pos _
  · exact hv

/-- With n turns left, the register takes n more factors x and the terms of the product below x^n. -/
theorem mulSerialFrom_eq {a : Active} (h : a.Legal) (u : Nat) {v : Nat} (hv : v < 2 ^ a.w) (n : Nat) {r : Nat}
    (hr : r < 2 ^ a.w) : mulSerialFrom a u v n r = modG a (mulX r n ^^^ clmulUpTo v u n) := by
  induction n generalizing r with
  | zero => simp [mulSerialFrom, mulX, clmulUpTo, modG_of_lt a hr]
  | succ n ih =>
    have hterm : mulX (if u.testBit n then v else 0) n = if u.testBit n then v <<< n else 0 := by
      cases u.testBit n <;> simp [mulX]
    have hstep : bitStep a r false = modG a (mulX r 1) := by simp [bitStep_eq_modG h hr]
    rw [mulSerialFrom_succ, ih (bitStep_false_xor_lt h hv r _), hstep, mulX_xor, hterm, clmulUpTo, Nat.xor_assoc,
      modG_xor, modG_mulX_modG h, ← modG_xor, mulX_mulX, Nat.add_comm 1 n, Nat.xor_comm (clmulUpTo v u n)]

/-- The bit-serial product is the modular product (R108). -/
theorem mulSerial_eq_mulmod {a : Active} (h : a.Legal) {u v : Nat} (hu : u < 2 ^ a.w) (hv : v < 2 ^ a.w) :
    mulSerial a u v = mulmod a u v := by
  rw [mulSerial, mulSerialFrom_eq h u hv a.w (Nat.two_pow_pos _), zero_mulX, Nat.zero_xor,
    ← clmul_eq_upTo v hu, mulmod_comm, mulmod]

/-- Shifting right in the reflected orientation is shifting left within W bits. -/
theorem reflectNat_shiftRight_one (r w : Nat) :
    reflectNat r w >>> 1 = reflectNat ((r <<< 1) % 2 ^ w) w := by
  apply Nat.eq_of_testBit_eq
  intro i
  simp only [Nat.testBit_shiftRight, testBit_reflectNat, Nat.testBit_mod_two_pow, Nat.testBit_shiftLeft]
  by_cases hi : 1 + i < w
  · simp [hi, show i < w by omega, show w - 1 - i < w by omega, show 1 ≤ w - 1 - i by omega,
      show w - 1 - (1 + i) = w - 1 - i - 1 by omega]
  · have hout : ¬ 1 ≤ w - 1 - i := by omega
    simp [hi, hout]

/-- The reflected shift register: a turn of the reflected loop on a reflected register is a reflected bit step. -/
theorem reflectNat_bitStep {a : Active} (h : a.Legal) {r : Nat} :
    (if (reflectNat r a.w).testBit 0 then reflectNat r a.w >>> 1 ^^^ reflectNat a.p.toNat a.w
      else reflectNat r a.w >>> 1) = reflectNat (bitStep a r false) a.w := by
  have hbit : (reflectNat r a.w).testBit 0 = r.testBit (a.w - 1) := by
    rw [testBit_reflectNat, Nat.sub_zero, decide_eq_true (show 0 < a.w from h.1), Bool.true_and]
  rw [hbit, reflectNat_shiftRight_one, bitStep, Bool.bne_false]
  cases r.testBit (a.w - 1)
  · rfl
  · exact (reflectNat_xor ..).symm

/-- The reflected loop on reflected values is the reflection of the loop (R108). -/
theorem mulSerialReflectedFrom_eq {a : Active} (h : a.Legal) (u : Nat) {v : Nat} (hv : v < 2 ^ a.w) {n : Nat}
    (hn : n ≤ a.w) (r : Nat) :
    mulSerialReflectedFrom a u v n (reflectNat r a.w) =
      reflectNat (mulSerialFrom a (reflectNat u a.w) (reflectNat v a.w) n r) a.w := by
  induction n generalizing r with
  | zero => rfl
  | succ n ih =>
    have hbit : (reflectNat u a.w).testBit n = u.testBit (a.w - 1 - n) := by
      rw [testBit_reflectNat, decide_eq_true (show n < a.w by omega), Bool.true_and]
    rw [mulSerialFrom_succ, ← ih (by omega), reflectNat_xor, mulSerialReflectedFrom, reflectNat_bitStep h, hbit]
    cases u.testBit (a.w - 1 - n)
    · simp [reflectNat_zero]
    · simp [reflectNat_reflectNat_of_lt hv]

/-- Settles O50: the loop is long division turn by turn, and the reflected loop mirrors it. -/
theorem bitSerialProductIsMulmod : Obligations.BitSerialProductIsMulmod := by
  intro a u v h hu hv
  refine ⟨mulSerial_eq_mulmod h hu hv, ?_⟩
  have hzero := mulSerialReflectedFrom_eq h u hv (le_refl a.w) 0
  rw [reflectNat_zero] at hzero
  rw [mulSerialReflected, hzero, ← mulSerial_eq_mulmod h (reflectNat_lt u a.w) (reflectNat_lt v a.w), mulSerial]

end Sys2Proof.Machine
end

section
/-! Register forms (R111 to R113), the byte update (R114 to R116), the kernel (R125), zero-byte extension and combination (R130 to
R134). -/

namespace Sys2Proof.Machine

/-! ### Register forms -/

theorem dec_xor {a : Active} (h : a.Legal) (r q : Word) : dec a (r ^^^ q) = dec a r ^^^ dec a q := by
  apply Nat.eq_of_testBit_eq
  intro i
  simp only [Nat.testBit_xor, testBit_dec h, BitVec.getLsbD_xor, Bool.and_xor_distrib_left]

/-- Equal significant fields are equal canonical values (R113). -/
theorem sig_eq_iff_dec_eq {a : Active} (h : a.Legal) (r q : Word) : sig a r = sig a q ↔ dec a r = dec a q :=
  ⟨dec_eq_of_sig_eq h, fun hdec => by rw [← enc_dec h, hdec, enc_dec h]⟩

/-- Settles O51: the three laws of the register forms. -/
theorem encodingAndDecodingStates : Obligations.EncodingAndDecodingStates :=
  fun _ h => ⟨fun _ => dec_enc h, enc_dec h, fun _ => sig_enc h⟩

/-- Settles O52: both directions of the representation are linear, bit by bit. -/
theorem representationIsLinear : Obligations.RepresentationIsLinear :=
  fun a h => ⟨dec_xor h, fun v u _ _ => enc_xor a v u, sig_eq_iff_dec_eq h⟩

/-! ### The byte update -/

/-- The bits of a byte in input order are the byte's polynomial (R114). -/
theorem bitsPoly_inputBits (a : Active) (d : Byte) : bitsPoly (inputBits a d) = beta a d :=
  bitsPoly_byte _ (beta_lt a d)

/-- Settles O53: both sides are v·x^8 + β(d)·x^W mod G. -/
theorem byteUpdateIsEightBitSteps : Obligations.ByteUpdateIsEightBitSteps := by
  intro a v d h hv
  have hlen : (inputBits a d).length = 8 := by simp [inputBits]
  rw [byteStepSerial, foldl_bitStep h hv, bitsPoly_inputBits, hlen, byteStep]

/-- The byte update is additive: the bytes may go with either summand. -/
theorem foldl_byteStep_xor (a : Active) (u v : Nat) (ds : List Byte) :
    ds.foldl (byteStep a) (u ^^^ v) = ds.foldl (byteStep a) u ^^^ (List.replicate ds.length 0).foldl (byteStep a) v := by
  induction ds generalizing u v with
  | nil => rfl
  | cons d ds ih =>
    have hsplit := byteStep_xor (a := a) u v d 0
    rw [show d ^^^ (0 : Byte) = d from BitVec.xor_zero] at hsplit
    rw [List.foldl_cons, hsplit, ih, List.foldl_cons, List.length_cons, List.replicate_succ, List.foldl_cons]

/-- Processing is additive over states (R116). -/
theorem proc_xor {a : Active} (h : a.Legal) (r q : Word) (ds : List Byte) :
    proc a (r ^^^ q) ds = proc a r ds ^^^ proc a q (List.replicate ds.length 0) := by
  rw [proc, dec_xor h, foldl_byteStep_xor, enc_xor, proc, proc]

/-- Settles O54: concatenation, additivity and the empty string. -/
theorem processingIsAssociativeAndLinear : Obligations.ProcessingIsAssociativeAndLinear :=
  fun _ r q xs ys h => ⟨proc_append h r xs ys, proc_xor h r q xs, proc_nil h r⟩

/-! ### The kernel -/

/-- `s` on a core with `n` slices. -/
def State.withSlices (s : State) (n : Nat) : State := { s with params := { s.params with nSlice := n } }

/-- PROCESS leaves the same whatever the number of slices: its checks do not read it, and the kernel is PROC for
every N (R125). -/
theorem exec_process_withSlices {s t : State} {n len : Nat} (hinv : s.Inv) (hn : 1 ≤ n)
    (ht : exec (.process len) s = .next t) : exec (.process len) (s.withSlices n) = .next (t.withSlices n) := by
  obtain ⟨⟨hslices, -⟩, -, hlegal, -⟩ := hinv
  rcases failsWith_or_checksPass (.process len) s with ⟨e, hfail⟩ | hpass
  · obtain rfl : s.failed e = t := Host.Outcome.next.inj ((exec_of_failsWith hfail).symm.trans ht)
    have hfail' : (s.withSlices n).FailsWith (.process len) e := hfail
    exact exec_of_failsWith hfail'
  · obtain ⟨a, ha⟩ := Option.isSome_iff_exists.mp (hpass.1 rfl)
    obtain rfl : s.after a (.process len) = t := Host.Outcome.next.inj ((exec_of_checksPass hpass fun _ => ha).symm.trans ht)
    have hpass' : (s.withSlices n).ChecksPass (.process len) := hpass
    have hkernel : kernel a n s.crcState (dataBytes s.data len) = kernel a s.params.nSlice s.crcState (dataBytes s.data len) := by
      rw [kernel_eq_proc (hlegal a ha) hn, kernel_eq_proc (hlegal a ha) hslices]
    have hafter : (s.withSlices n).after a (.process len) = (s.after a (.process len)).withSlices n := by
      simp only [State.after, crcAfter, State.withSlices, hkernel]
      rfl
    rw [exec_of_checksPass hpass' fun _ => ha, hafter]

/-- Settles O55: the kernel is PROC for every N, so N is nowhere in what PROCESS leaves. -/
theorem kernelComputesProcForEverySliceCount : Obligations.KernelComputesProcForEverySliceCount :=
  ⟨fun _ _ r ds h hn => kernel_eq_proc h hn r ds, fun _ _ _ _ => exec_process_withSlices⟩

/-! ### Zero-byte extension -/

/-- Repeated squaring gives the power x^(8·2^k) (R130, R204). -/
theorem foldPower_eq_xpow {a : Active} (h : a.Legal) (k : Nat) : foldPower a k = xpow a (8 * 2 ^ k) := by
  induction k with
  | zero => rfl
  | succ k ih => rw [foldPower, ih, xpow_mul_xpow h, ← Nat.two_mul, Nat.pow_succ']; congr 1; omega

theorem xpow_lt {a : Active} (h : a.Legal) (e : Nat) : xpow a e < 2 ^ a.w := modG_lt h _

theorem dec_foldEntry {a : Active} (h : a.Legal) (k : Nat) : dec a (foldEntry a k) = xpow a (8 * 2 ^ k) := by
  rw [foldEntry, foldPower_eq_xpow h, dec_enc h (xpow_lt h _)]

/-- After the turns for the low k bits of n, ZX has extended by n mod 2^k zero bytes (R132). -/
theorem foldl_zxStep {a : Active} (h : a.Legal) (r n : Word) (k : Nat) :
    (List.range k).foldl (zxStep a n) (sig a r) = enc a (modG a (mulX (dec a r) (8 * (n.toNat % 2 ^ k)))) := by
  induction k with
  | zero => simp [Nat.mod_one, mulX, modG_of_lt a (dec_lt h r), enc_dec h]
  | succ k ih =>
    have hdigit := Nat.testBit_eq_decide_div_mod_eq (x := n.toNat) (i := k)
    rw [List.range_succ, List.foldl_append, ih, List.foldl_cons, List.foldl_nil, zxStep, ← BitVec.testBit_toNat,
      Nat.mod_pow_succ]
    cases hbit : n.toNat.testBit k
    · have hzero : n.toNat / 2 ^ k % 2 = 0 := by simpa [hbit] using hdigit
      rw [hzero, Nat.mul_zero, Nat.add_zero]
      rfl
    · have hone : n.toNat / 2 ^ k % 2 = 1 := by simpa [hbit] using hdigit
      rw [if_pos rfl, hone, Nat.mul_one, dec_enc h (modG_lt h _), dec_foldEntry h, mulmod_xpow h, modG_mulX_modG h,
        mulX_mulX, ← Nat.mul_add]

/-- The closed form of zero-byte extension (R132). -/
theorem zx_eq_modG {a : Active} (h : a.Legal) (r n : Word) : zx a r n = enc a (modG a (mulX (dec a r) (8 * n.toNat))) := by
  rw [zx, foldl_zxStep h, Nat.mod_eq_of_lt n.isLt]

theorem messagePoly_zeros (a : Active) (n : Nat) : messagePoly a (List.replicate n 0) = 0 := by
  induction n with
  | zero => rfl
  | succ n ih => rw [List.replicate_succ, messagePoly_cons, ih, beta_zero, zero_mulX, Nat.xor_zero]

/-- PROC in closed form: the register times x^(8·length), plus the message times x^W, mod G. -/
theorem proc_eq_modG {a : Active} (h : a.Legal) (r : Word) (ds : List Byte) :
    proc a r ds = enc a (modG a (mulX (dec a r) (8 * ds.length) ^^^ mulX (messagePoly a ds) a.w)) := by
  rw [proc, foldl_byteStep h (dec_lt h r)]

/-- The zero-byte law (R133). -/
theorem zx_eq_proc_zeros {a : Active} (h : a.Legal) (r n : Word) : zx a r n = proc a r (List.replicate n.toNat 0) := by
  rw [zx_eq_modG h, proc_eq_modG h, messagePoly_zeros, List.length_replicate, zero_mulX, Nat.xor_zero]

/-- Settles O56, by the closed form. -/
theorem zeroByteExtensionLaw : Obligations.ZeroByteExtensionLaw :=
  fun _ r n h => ⟨zx_eq_proc_zeros h r n, by rw [zx_eq_modG h, mulmod_xpow h]⟩

/-- The combine law from any register value (R134). -/
theorem comb_zx_proc {a : Active} (h : a.Legal) (r : Word) {ys : List Byte} (hlen : ys.length < 2 ^ 64) :
    comb a (zx a r (BitVec.ofNat 64 ys.length)) (proc a 0 ys) = proc a r ys := by
  have hsplit := proc_xor h 0 r ys
  rw [show (0 : Word) ^^^ r = r from BitVec.zero_xor] at hsplit
  rw [comb, sig_zx h, sig_proc h, zx_eq_proc_zeros h, BitVec.toNat_ofNat, Nat.mod_eq_of_lt hlen, hsplit, BitVec.xor_comm]

/-- Settles O57: PROC of the second string splits into PROC from 0 and zero bytes from the state after the first. -/
theorem combineLaw : Obligations.CombineLaw :=
  ⟨fun _ _ _ => rfl, fun _ xs ys h hlen => by rw [comb_zx_proc h _ hlen, proc_append h]⟩

end Sys2Proof.Machine
end

section
/-! The residue and what it detects: the serial residue (R135), a message followed by its checksum (R137), single-bit errors
(R138). -/

namespace Sys2Proof.Machine

/-! ### The residue -/

theorem orientedXor_lt {a : Active} (h : a.Legal) : orientedXor a < 2 ^ a.w := by
  have ⟨_, _, _, _, hx⟩ := h
  unfold orientedXor
  split
  · exact reflectNat_lt ..
  · exact hx

/-- The residue is ρX·x^W mod G. -/
theorem residue_eq_modG {a : Active} (h : a.Legal) : residue a = enc a (modG a (mulX (orientedXor a) a.w)) := by
  rw [residue, mulmod_xpow h]

theorem bitsPoly_replicate_false (n : Nat) : bitsPoly (List.replicate n false) = 0 := by
  unfold bitsPoly
  induction n with
  | zero => rfl
  | succ n ih => exact ih

/-- W zero bits through the shift register multiply by x^W (R135). -/
theorem residueSerial_eq {a : Active} (h : a.Legal) : residueSerial a = residue a := by
  rw [residueSerial, foldl_bitStep h (orientedXor_lt h), bitsPoly_replicate_false, List.length_replicate, zero_mulX,
    Nat.xor_zero, residue_eq_modG h]

/-! ### A message followed by its checksum -/

/-- A checksum's canonical value when it goes back in: reflected where the input is. -/
def orientedChecksum (a : Active) (c : Word) : Nat := if a.rin then reflectNat c.toNat a.w else c.toNat

/-- The number of bytes of a serialised checksum (R137). -/
def checksumBytes (a : Active) : Nat := (a.w + 7) / 8

theorem checksumBytes_le {a : Active} (h : a.Legal) : a.w ≤ 8 * checksumBytes a ∧ 8 * checksumBytes a ≤ 64 := by
  have ⟨_, hw, _⟩ := h
  unfold checksumBytes
  omega

theorem length_serialize (a : Active) (c : Word) : (serialize a c).length = checksumBytes a := by
  unfold serialize checksumBytes
  cases a.rin
  · simp [dataBytes_length]
  · simp [dataBytes_length]

/-- Reflecting a w-bit value in a wider field moves its reflection to the top of the field. -/
theorem reflectNat_of_lt {v w n : Nat} (hv : v < 2 ^ w) (hn : w ≤ n) : reflectNat v n = mulX (reflectNat v w) (n - w) := by
  apply Nat.eq_of_testBit_eq
  intro i
  simp only [mulX, Nat.testBit_shiftLeft, testBit_reflectNat]
  by_cases hi : i < n
  · by_cases hlow : n - w ≤ i
    · simp [hi, hlow, show i - (n - w) < w by omega, show w - 1 - (i - (n - w)) = n - 1 - i by omega]
    · simp [hlow, testBit_eq_false_of_lt hv (show w ≤ n - 1 - i by omega)]
  · simp [hi, show ¬ i - (n - w) < w by omega]

/-- The serialised checksum, as a message, is its canonical value moved up to whole bytes (R137). -/
theorem messagePoly_serialize {a : Active} (h : a.Legal) {c : Word} (hc : c.toNat < 2 ^ a.w) :
    messagePoly a (serialize a c) = mulX (orientedChecksum a c) (8 * checksumBytes a - a.w) := by
  obtain ⟨hle, h64⟩ := checksumBytes_le h
  cases hr : a.rin
  · have hfits : c.toNat <<< (8 * checksumBytes a - a.w) < 2 ^ (8 * checksumBytes a) := by
      rw [Nat.shiftLeft_eq]
      calc c.toNat * 2 ^ (8 * checksumBytes a - a.w) < 2 ^ a.w * 2 ^ (8 * checksumBytes a - a.w) :=
            Nat.mul_lt_mul_of_pos_right hc (Nat.two_pow_pos _)
        _ = 2 ^ (8 * checksumBytes a) := by rw [← Nat.pow_add, Nat.add_sub_cancel' hle]
    have h64' : 2 ^ (8 * checksumBytes a) ≤ 2 ^ 64 := Nat.pow_le_pow_right (by omega) h64
    have hser : serialize a c = (dataBytes (c <<< (8 * checksumBytes a - a.w)) (checksumBytes a)).reverse := by
      simp [serialize, hr, checksumBytes]
    rw [hser, messagePoly_msb hr, BitVec.toNat_shiftLeft, Nat.mod_eq_of_lt (hfits.trans_le h64'), Nat.mod_eq_of_lt hfits]
    simp [orientedChecksum, hr, mulX]
  · have hser : serialize a c = dataBytes c (checksumBytes a) := by simp [serialize, hr, checksumBytes]
    rw [hser, messagePoly_lsb hr, reflectNat_of_lt hc hle]
    simp [orientedChecksum, hr]

/-- The checksum's number fits W bits, and so the register (R118). -/
theorem toNat_fin {a : Active} (h : a.Legal) (r : Word) :
    (fin a r).toNat = (if a.rout then reflectNat (dec a r) a.w else dec a r) ^^^ a.x.toNat ∧ (fin a r).toNat < 2 ^ a.w := by
  have ⟨_, hw, _, _, hx⟩ := h
  have horiented : (if a.rout then reflectNat (dec a r) a.w else dec a r) < 2 ^ a.w := by
    split
    · exact reflectNat_lt ..
    · exact dec_lt h r
  have hlt := Nat.xor_lt_two_pow horiented hx
  rw [fin, BitVec.toNat_ofNat, Nat.mod_eq_of_lt (hlt.trans_le (Nat.pow_le_pow_right (by omega) hw))]
  exact ⟨rfl, hlt⟩

/-- With RIN = ROUT the checksum goes back in as the state plus ρX. -/
theorem orientedChecksum_fin {a : Active} (h : a.Legal) (hro : a.rin = a.rout) (r : Word) :
    orientedChecksum a (fin a r) = dec a r ^^^ orientedXor a := by
  obtain ⟨hfin, -⟩ := toNat_fin h r
  rw [orientedChecksum, orientedXor, hfin, hro]
  cases a.rout
  · rfl
  · simp only [if_true]
    rw [reflectNat_xor, reflectNat_reflectNat_of_lt (dec_lt h r)]

/-- The state after a checksum has been processed: what was in the register cancels, and ρX·x^(8n) is left, where n is the
checksum's number of bytes. -/
theorem proc_serialize_fin {a : Active} (h : a.Legal) (hro : a.rin = a.rout) (r : Word) :
    proc a r (serialize a (fin a r)) = enc a (modG a (mulX (orientedXor a) (8 * checksumBytes a))) := by
  obtain ⟨hle, -⟩ := checksumBytes_le h
  obtain ⟨-, hlt⟩ := toNat_fin h r
  rw [proc_eq_modG h, messagePoly_serialize h hlt, orientedChecksum_fin h hro, length_serialize, mulX_mulX,
    Nat.sub_add_cancel hle, ← mulX_xor, ← Nat.xor_assoc, Nat.xor_self, Nat.zero_xor]

/-- ρX·x^(8n) is the residue when the checksum fills its bytes, or when X = 0. -/
theorem residue_eq_of_fills {a : Active} (h : a.Legal) (hfill : a.w % 8 = 0 ∨ a.x = 0) :
    residue a = enc a (modG a (mulX (orientedXor a) (8 * checksumBytes a))) := by
  rw [residue_eq_modG h]
  rcases hfill with hw | hx
  · have hbytes : 8 * checksumBytes a = a.w := by unfold checksumBytes; omega
    rw [hbytes]
  · have hzero : orientedXor a = 0 := by simp [orientedXor, hx, reflectNat_zero]
    rw [hzero, zero_mulX, zero_mulX]

/-- A message followed by its checksum leaves the residue (R137). -/
theorem proc_message_checksum {a : Active} (h : a.Legal) (hro : a.rin = a.rout) (hfill : a.w % 8 = 0 ∨ a.x = 0) (r : Word)
    (msg : List Byte) : proc a r (msg ++ serialize a (fin a (proc a r msg))) = residue a := by
  rw [← proc_append h, proc_serialize_fin h hro, residue_eq_of_fills h hfill]

/-- Settles O59: the state cancels against the checksum's copy of it. -/
theorem messageWithItsChecksumIsValid : Obligations.MessageWithItsChecksumIsValid := by
  intro a msg h hro hfill
  rw [validp, sig_proc h, proc_message_checksum h hro hfill]
  exact decide_eq_true rfl

/-! ### Single-bit errors -/

/-- An odd polynomial that x^s makes a power of x is 1. -/
theorem eq_one_of_shiftLeft_eq_two_pow {v s k : Nat} (hv : v.testBit 0 = true) (h : v <<< s = 2 ^ k) : v = 1 := by
  have hbit := congrArg (Nat.testBit · s) h
  obtain rfl : k = s := by simpa [Nat.testBit_shiftLeft, Nat.testBit_two_pow, hv] using hbit
  rw [Nat.shiftLeft_eq] at h
  exact Nat.eq_of_mul_eq_mul_right (Nat.two_pow_pos k) (h.trans (Nat.one_mul _).symm)

/-- The degrees add: a product with a factor of positive degree is 0 or of positive degree. -/
theorem clmul_ne_one {g q : Nat} (hg : 2 ≤ g) (hq : q ≠ 0) : clmul g q ≠ 1 := by
  have htop := testBit_clmul_top q g q.log2 g.log2 Nat.lt_log2_self (Nat.testBit_log2 hq) Nat.lt_log2_self
    (Nat.testBit_log2 (by omega))
  have hdegree : 1 ≤ g.log2 := (Nat.le_log2 (by omega)).mpr hg
  have hle := Nat.ge_two_pow_of_testBit htop
  have htwo : 2 ^ 1 ≤ 2 ^ (g.log2 + q.log2) := Nat.pow_le_pow_right (by omega) (by omega)
  omega

/-- A polynomial of two terms or more has no power of x among its multiples: with the factors x taken out of both operands the
product is odd and of positive degree. -/
theorem clmul_ne_two_pow {g : Nat} (hg : ∀ t, g ≠ 2 ^ t) (q k : Nat) : clmul q g ≠ 2 ^ k := by
  intro heq
  have hpos := Nat.two_pow_pos k
  have hq : q ≠ 0 := by rintro rfl; rw [clmul_zero_left] at heq; omega
  have hg0 : g ≠ 0 := by rintro rfl; rw [clmul_zero_right] at heq; omega
  obtain ⟨s, q', rfl, hq'⟩ := exists_odd_shift q hq
  obtain ⟨t, g', rfl, hg'⟩ := exists_odd_shift g hg0
  have hprod : clmul g' q' <<< (s + t) = 2 ^ k := by
    rw [← heq, clmul_shiftLeft_left, clmul_shiftLeft_right, clmul_comm, ← Nat.shiftLeft_add, Nat.add_comm]
  have hodd : (clmul g' q').testBit 0 = true := by rw [testBit_clmul_zero, hg', hq']; rfl
  have hone : g' ≠ 1 := by rintro rfl; exact hg t (Nat.one_shiftLeft t)
  have hzero : g' ≠ 0 := by rintro rfl; cases hg'
  have hzero' : q' ≠ 0 := by rintro rfl; cases hq'
  exact clmul_ne_one (by omega) hzero' (eq_one_of_shiftLeft_eq_two_pow hodd hprod)

/-- With P ≠ 0, G has a term besides x^W. -/
theorem gen_ne_two_pow {a : Active} (h : a.Legal) (hp : a.p ≠ 0) (t : Nat) : gen a ≠ 2 ^ t := by
  intro hgen
  obtain rfl : t = a.w := by
    have htop := gen_top h
    rw [hgen, Nat.testBit_two_pow] at htop
    exact of_decide_eq_true htop
  have hpx : a.p.toNat = 0 := Nat.xor_right_injective (hgen.trans (Nat.xor_zero _).symm)
  exact hp (BitVec.eq_of_toNat_eq hpx)

/-- With P ≠ 0 no power of x vanishes mod G (R138). -/
theorem xpow_ne_zero {a : Active} (h : a.Legal) (hp : a.p ≠ 0) (k : Nat) : xpow a k ≠ 0 := by
  intro hzero
  obtain ⟨q, hq⟩ := modG_multiple a (mulX 1 k)
  rw [← xpow, hzero, Nat.xor_zero, mulX, Nat.one_shiftLeft] at hq
  exact clmul_ne_two_pow (gen_ne_two_pow h hp) q k hq.symm

theorem enc_injective {a : Active} (h : a.Legal) {u v : Nat} (hu : u < 2 ^ a.w) (hv : v < 2 ^ a.w)
    (heq : enc a u = enc a v) : u = v := by
  rw [← dec_enc h hu, heq, dec_enc h hv]

/-- With P ≠ 0 a single-bit change changes the state by a power of x, which is not 0 (R138). -/
theorem proc_flipBit_ne {a : Active} (h : a.Legal) (hp : a.p ≠ 0) (r : Word) {ds : List Byte} {i j : Nat} (hi : i < ds.length)
    (hj : j < 8) : proc a r (flipBit ds i j) ≠ proc a r ds := by
  intro heq
  obtain ⟨hpoly, hlen⟩ := messagePoly_flip (a := a) ds i j hi
  obtain ⟨e, he⟩ := beta_single_bit a j hj
  rw [proc_eq_modG h, proc_eq_modG h, hlen, hpoly] at heq
  have hvalue := enc_injective h (modG_lt h _) (modG_lt h _) heq
  rw [mulX_xor, ← Nat.xor_assoc, modG_xor, he, mulX_mulX, mulX_mulX, ← xpow] at hvalue
  exact xpow_ne_zero h hp _ (Nat.xor_right_injective (hvalue.trans (Nat.xor_zero _).symm))

/-- With P = 0 every multiple of x^W vanishes mod G (R138). -/
theorem modG_mulX_width {a : Active} (h : a.Legal) (hp : a.p = 0) (v : Nat) : modG a (mulX v a.w) = 0 := by
  have hgen : gen a = mulX 1 a.w := by simp [gen, hp, mulX, Nat.one_shiftLeft]
  rw [← clmul_mulX, ← hgen, modG_clmul_gen h]

/-- With P = 0 the state depends on a byte string by its length only. -/
theorem proc_congr_length {a : Active} (h : a.Legal) (hp : a.p = 0) (r : Word) {xs ys : List Byte}
    (hlen : xs.length = ys.length) : proc a r xs = proc a r ys := by
  rw [proc_eq_modG h, proc_eq_modG h, modG_xor, modG_xor, modG_mulX_width h hp, modG_mulX_width h hp, hlen]

/-- Settles O60: with P ≠ 0 the change is a power of x, which survives; with P = 0 only the length is left. -/
theorem singleBitErrorsAreDetected : Obligations.SingleBitErrorsAreDetected := by
  refine fun a h => ⟨fun hp => ⟨fun r ds i j hi hj => ?_, fun hro hfill msg i j hi hj => ?_⟩,
    fun hp => ⟨fun j => modG_mulX_width h hp _, fun r ds i j hi _ => ?_⟩⟩
  · rw [sig_proc h, sig_proc h]
    exact proc_flipBit_ne h hp r hi hj
  · have hflip := proc_flipBit_ne h hp (initVal a) hi hj
    rw [proc_message_checksum h hro hfill] at hflip
    rw [validp, sig_proc h]
    exact decide_eq_false hflip
  · obtain ⟨-, hlen⟩ := messagePoly_flip (a := a) ds i j hi
    exact proc_congr_length h hp r hlen

end Sys2Proof.Machine
end

section
/-! What each command that computes leaves, as the arithmetic of 40_primitives.md gives it: INITVAL and FIN (R117, R118), the
table entries (R121), and the whole next state of each command. -/

namespace Sys2Proof.Machine

/-! ### The initial value and the checksum -/

/-- INITVAL, reflected or left-aligned (R117). -/
theorem initVal_eq (a : Active) : initVal a = if a.rin then reflect a.i a.w else a.i <<< (8 - a.w) := by
  rw [initVal, enc]
  cases hr : a.rin
  · apply BitVec.eq_of_toNat_eq
    simp [shiftAmount, hr]
  · rfl

/-- Settles O36: CONFIG's checks pass, and its STATE is INITVAL of the staged record. -/
theorem configActivatesTheStagedParameters : Obligations.ConfigActivatesTheStagedParameters := by
  intro s hlo hhi hp hi hx
  rw [exec_config_legal ((stagedLegal_iff s).mpr ⟨hlo, hhi, hp, hi, hx⟩), initVal_eq]
  rfl

/-- Settles O37: INIT writes INITVAL of the active configuration. -/
theorem initSetsTheInitialState : Obligations.InitSetsTheInitialState := by
  intro s a ha _
  rw [exec_init_some ha, initVal_eq]
  rfl

/-- STATE's significant field, moved down to bit 0 (R118's first two steps). -/
def alignedField (a : Active) (r : Word) : Word :=
  (if a.rin = false ∧ a.w < 8 then r >>> (8 - a.w) else r) &&& mask a.w

/-- The canonical value is the field, reflected when RIN = 1 (R111). -/
theorem dec_eq_alignedField (a : Active) (r : Word) :
    dec a r = if a.rin then reflectNat (alignedField a r).toNat a.w else (alignedField a r).toNat := by
  rw [dec, alignedField]
  cases hr : a.rin
  · by_cases hw : a.w < 8
    · simp [shiftAmount, hr, hw]
    · simp [shiftAmount, hr, hw, show 8 - a.w = 0 by omega]
  · simp

theorem alignedField_lt {a : Active} (h : a.Legal) (r : Word) : (alignedField a r).toNat < 2 ^ a.w := by
  have ⟨_, hw, _⟩ := h
  rw [← and_not_mask_eq_zero_iff hw, alignedField, BitVec.and_assoc, BitVec.and_not_self]
  exact BitVec.and_zero

/-- FIN is the document's four steps (R118): the two reflections cancel when RIN = ROUT. -/
theorem fin_eq_fourSteps {a : Active} (h : a.Legal) (r : Word) :
    fin a r = (if a.rin ≠ a.rout then reflect (alignedField a r) a.w else alignedField a r) ^^^ a.x := by
  have hback := reflectNat_reflectNat_of_lt (alignedField_lt h r)
  rw [fin, dec_eq_alignedField, BitVec.ofNat_xor]
  cases a.rin <;> cases a.rout <;> simp [reflect, hback]

/-- Settles O39: FINALIZE writes FIN of STATE, which is the four steps. -/
theorem finalizeIsTheFourSteps : Obligations.FinalizeIsTheFourSteps := by
  intro s a ha h
  have hfin := fin_eq_fourSteps h s.crcState
  simp only [alignedField] at hfin
  rw [exec_finalize_some ha, hfin]
  rfl

/-! ### The commands -/

/-- Settles O40: the serial residue is RESIDUE, and VALIDP compares with it. -/
theorem isvalidAndResrdUseTheResidue : Obligations.IsvalidAndResrdUseTheResidue := by
  intro s a ha h
  rw [residueSerial_eq h]
  refine ⟨exec_resrd_some ha, fun heq => ?_, fun hne => ?_⟩
  · have hvalid : validp a s.crcState = true := decide_eq_true heq
    rw [exec_isvalid_some ha, hvalid]
    rfl
  · have hvalid : validp a s.crcState = false := decide_eq_false hne
    rw [exec_isvalid_some ha, hvalid]
    rfl

/-- Settles O41: XORing OPB's field in twice cancels. -/
theorem combineXorsTheSignificantFields : Obligations.CombineXorsTheSignificantFields := by
  intro s a ha
  have hcancel : comb a (sig a s.crcState ^^^ sig a s.opb) s.opb = sig a s.crcState := by
    rw [comb, sig_xor, sig_sig, sig_sig, BitVec.xor_assoc, BitVec.xor_self, BitVec.xor_zero]
  have hagain := exec_combine_some (s := s.setCrc (sig a s.crcState ^^^ sig a s.opb)) ha
  rw [State.setCrc_crcState, State.setCrc_opb, hcancel] at hagain
  exact ⟨exec_combine_some ha, hagain⟩

/-- Settles O42, by the zero-byte law. -/
theorem zextProcessesZeroBytes : Obligations.ZextProcessesZeroBytes := by
  intro s a ha h
  rw [exec_zext_some ha, zx_eq_proc_zeros h]
  rfl

/-- Settles O43: the bit-serial product is the modular product, which commutes. -/
theorem clmulIsTheBitSerialProduct : Obligations.ClmulIsTheBitSerialProduct := by
  intro s a ha h
  have hserial (r q : Word) := mulSerial_eq_mulmod h (dec_lt h r) (dec_lt h q)
  rw [exec_clmul_some ha, hserial, hserial, mulmod_comm a (dec a s.opb)]
  exact ⟨rfl, rfl⟩

/-- Settles O44: the result's bits are those of `getLsbD_reflect`. -/
theorem reflectReversesTheBottomBits : Obligations.ReflectReversesTheBottomBits := by
  intro s b hlo hhi
  refine ⟨reflect s.opa b, exec_reflect_legal hlo hhi, fun i hi => ?_, fun i hi => ?_⟩
  · rw [getLsbD_reflect, decide_eq_true hi, decide_eq_true (show i < 64 by omega), Bool.true_and, Bool.true_and]
  · rw [getLsbD_reflect, decide_eq_false (Nat.not_lt.mpr hi), Bool.and_false, Bool.false_and]

/-- A table entry as a modular product with a power of x (R121). -/
theorem tableEntry_eq_mulmod {a : Active} (h : a.Legal) (n slice : Nat) (d : Byte) :
    tableEntry a n slice d = enc a (mulmod a (modG a (beta a d)) (xpow a (8 * (n - 1 - slice) + a.w))) := by
  rw [tableEntry, mulmod_xpow h, modG_mulX_modG h]

/-- The table is linear in the byte (R200). -/
theorem tableEntry_xor (a : Active) (n slice : Nat) (d e : Byte) :
    tableEntry a n slice (d ^^^ e) = tableEntry a n slice d ^^^ tableEntry a n slice e := by
  rw [tableEntry, beta_xor, mulX_xor, modG_xor, enc_xor, tableEntry, tableEntry]

/-- Settles O45: LUTRD writes the table entry, which is linear and canonical. -/
theorem lutrdReadsTheTableEntry : Obligations.LutrdReadsTheTableEntry := by
  intro s a slice b ha h hslice _
  simp only [← tableEntry_eq_mulmod h, BitVec.ofNat_xor]
  exact ⟨exec_lutrd_some ha hslice, fun c _ => tableEntry_xor .., sig_enc h (modG_lt h _)⟩

/-- Settles O46, by repeated squaring. -/
theorem foldrdReadsTheFoldingPower : Obligations.FoldrdReadsTheFoldingPower := by
  intro s a k ha h hk
  rw [exec_foldrd_some ha hk, foldEntry, foldPower_eq_xpow h]
  rfl

end Sys2Proof.Machine
end

section
/-! A pending command's operands under the host's accesses (R150, R261, R264), and the two commands that read none
(R151, R157). -/

namespace Sys2Proof.Machine

/-- While a command is pending, a host access changes only error bits, the bus's answer and the count of draws: a read changes
nothing in the core (R68), and a write to an operand register is dropped (R264). -/
theorem perform_access_busy {e : Event} {s : State} (hbusy : s.pending.isSome = true) (haccess : e.isAccess = true) :
    ∃ errors response draws,
      perform e s = .next { s with errors := errors, response := response, draws := draws } := by
  cases e with
  | read size addr =>
    obtain ⟨response, draws, hread⟩ := hostRead_cases size addr s
    exact ⟨s.errors, response, draws, congrArg _ hread⟩
  | write size addr v =>
    obtain ⟨errors, response, hwrite⟩ := hostWrite_busy hbusy size addr v
    exact ⟨errors, response, s.draws, congrArg _ hwrite⟩
  | reset => cases haccess
  | core => cases haccess

/-- Settles O9, by induction on the accesses: each keeps the operands and PENDING, so the next one finds the core busy too. -/
theorem accessesKeepAPendingCommandsOperands : Obligations.AccessesKeepAPendingCommandsOperands := by
  intro s accesses rest hbusy haccess hsched
  induction accesses generalizing s with
  | nil => exact ⟨s, run_zero s, s.sameOperands_refl, hsched⟩
  | cons e es ih =>
    obtain ⟨he, hes⟩ := List.forall_mem_cons.mp haccess
    obtain ⟨errors, response, draws, hperform⟩ :=
      perform_access_busy (s := { s with schedule := es ++ rest }) hbusy he
    obtain ⟨t, hrun, hsame, hrest⟩ :=
      ih { s with schedule := es ++ rest, errors := errors, response := response, draws := draws } hbusy hes rfl
    exact ⟨t, (run_succ ((step_cons hsched).trans hperform) es.length).trans hrun, hsame, hrest⟩

/-- Settles O35: neither command has a check to fail, and each ends at once, ZERO after its write to STATE. -/
theorem nopAndZeroComplete : Obligations.NopAndZeroComplete :=
  fun s => ⟨complete_eq s, complete_eq (s.setCrc 0)⟩

end Sys2Proof.Machine
end

section
/-! Chunked computation: the spans of a message, processed each on its own and shifted over what follows, XOR to the state
after the whole message (R181). -/

namespace Sys2Proof.Machine

/-- A string's own result, XORed into the state before it extended over its length, is the state after it: the combine law
(R134) with the significant fields already taken. -/
theorem zx_xor_proc {a : Active} (h : a.Legal) (r : Word) {ys : List Byte} (hlen : ys.length < 2 ^ 64) :
    zx a r (BitVec.ofNat 64 ys.length) ^^^ proc a 0 ys = proc a r ys := by
  rw [← comb_zx_proc h r hlen, comb, sig_zx h, sig_proc h]

/-- Spans that all start from 0 XOR to PROC of their concatenation from 0. -/
theorem foldr_xor_shiftedSpans_zero {a : Active} (h : a.Legal) (spans : List (List Byte))
    (hlen : spans.flatten.length < 2 ^ 64) :
    (shiftedSpans a 0 spans).foldr (· ^^^ ·) 0 = proc a 0 spans.flatten := by
  induction spans with
  | nil =>
    have hsig : sig a 0 = 0 := BitVec.zero_and
    exact ((proc_nil h 0).trans hsig).symm
  | cons span later ih =>
    rw [List.flatten_cons, List.length_append] at hlen
    have hlater : later.flatten.length < 2 ^ 64 := by omega
    rw [shiftedSpans, List.foldr_cons, ih hlater, zx_xor_proc h _ hlater, proc_append h, List.flatten_cons]

/-- The shifted results in the order of the spans XOR to the state after the message; only the bytes after the first span are
counted by a ZX. -/
theorem foldr_xor_shiftedSpans {a : Active} (h : a.Legal) (r : Word) (first : List Byte) {later : List (List Byte)}
    (hlen : later.flatten.length < 2 ^ 64) :
    (shiftedSpans a r (first :: later)).foldr (· ^^^ ·) 0 = proc a r (first :: later).flatten := by
  rw [shiftedSpans, List.foldr_cons, foldr_xor_shiftedSpans_zero h later hlen, zx_xor_proc h _ hlen, proc_append h,
    List.flatten_cons]

/-- Settles O58: XOR does not depend on the order, and in the order of the spans each step is the combine law. -/
theorem chunkedComputationEqualsProcessing : Obligations.ChunkedComputationEqualsProcessing := by
  intro a first later order h hlen hperm
  calc order.foldl (· ^^^ ·) 0
      = (shiftedSpans a (initVal a) (first :: later)).foldl (· ^^^ ·) 0 := hperm.foldl_eq 0
    _ = (shiftedSpans a (initVal a) (first :: later)).foldr (· ^^^ ·) 0 := List.foldl_eq_foldr ..
    _ = proc a (initVal a) (first :: later).flatten := foldr_xor_shiftedSpans h _ first hlen

end Sys2Proof.Machine
end

section
/-! The errors (60_exceptions.md): what raises each one, and what a command, a dropped write or an undefined access leaves. -/

namespace Sys2Proof.Machine

/-! ### How a command ends -/

/-- A command that answers has failed one check, or has passed them all under some configuration. -/
theorem exec_next_cases {i : Instr} {s t : State} (ht : exec i s = .next t) :
    (∃ e, s.FailsWith i e ∧ t = s.failed e) ∨
      (s.ChecksPass i ∧ ∃ a, (needsActive i = true → s.active = some a) ∧ t = s.after a i) := by
  rcases failsWith_or_checksPass i s with ⟨e, hfail⟩ | hpass
  · exact .inl ⟨e, hfail, Host.Outcome.next.inj (ht.symm.trans (exec_of_failsWith hfail))⟩
  · obtain ⟨a, ha⟩ := exists_active_of_checksPass hpass
    exact .inr ⟨hpass, a, ha, Host.Outcome.next.inj (ht.symm.trans (exec_of_checksPass hpass ha))⟩

theorem State.FailsWith.not_checksPass {i : Instr} {s : State} {e : ErrorCode} (h : s.FailsWith i e) : ¬ s.ChecksPass i := by
  rintro ⟨hneeds, hrange, hstaged⟩
  rcases h with ⟨-, hi, hnone⟩ | ⟨-, -, hout⟩ | ⟨-, hi, hillegal⟩
  · have hsome := hneeds hi
    rw [hnone] at hsome
    cases hsome
  · exact absurd (hrange.symm.trans hout) (by decide)
  · exact absurd ((hstaged hi).symm.trans hillegal) (by decide)

/-- ERR_BUSY is a host write's error, not a command's (R224). -/
theorem State.FailsWith.ne_busy {i : Instr} {s : State} {e : ErrorCode} (h : s.FailsWith i e) : e ≠ .busy := by
  rcases h with ⟨rfl, -⟩ | ⟨rfl, -⟩ | ⟨rfl, -⟩ <;> decide

/-! ### The error bits as an operand -/

/-- `s` with other error bits. -/
def State.withErrors (s : State) (e : ErrorBits) : State := { s with errors := e }

/-- What a command that passes its checks leaves does not depend on the error bits, and it keeps them. -/
theorem after_withErrors (s : State) (e : ErrorBits) (a : Active) (i : Instr) :
    (s.withErrors e).after a i = (s.after a i).withErrors e := by
  cases i <;> rfl

/-- Settles O20: the checks read no error bit, a failure sets one more, and a success keeps them all. -/
theorem errorBitsDoNotBlockCommands : Obligations.ErrorBitsDoNotBlockCommands := by
  intro i s t e ht
  rcases exec_next_cases ht with ⟨k, hfail, rfl⟩ | ⟨hpass, a, ha, rfl⟩
  · have hfail' : (s.withErrors e).FailsWith i k := hfail.congr rfl rfl fun _ => rfl
    exact ⟨_, exec_of_failsWith hfail', rfl, fun _ => failed_keeps_error (s := s.withErrors e)⟩
  · have hpass' : (s.withErrors e).ChecksPass i := checksPass_congr hpass rfl rfl fun _ => rfl
    have hexec : exec i (s.withErrors e) = .next ((s.after a i).withErrors e) :=
      (exec_of_checksPass hpass' ha).trans (congrArg _ (after_withErrors s e a i))
    exact ⟨_, hexec, rfl, fun _ hset => hset⟩

/-! ### ERR_PARAM -/

/-- A value is below 2^n when it has no bit at or above position `n`. -/
theorem toNat_lt_two_pow_iff (v : Word) (n : Nat) : v.toNat < 2 ^ n ↔ ∀ j, n ≤ j → v.getLsbD j = false :=
  ⟨fun h _ => testBit_eq_false_of_lt h, Nat.lt_pow_two_of_testBit v.toNat⟩

/-- The condition of R223 on the staging registers. -/
def State.StagedIllegal (s : State) : Prop :=
  cfgWidth s.cfg = 0 ∨ 64 < cfgWidth s.cfg ∨ ∃ j, cfgWidth s.cfg ≤ j ∧
    (s.poly.getLsbD j = true ∨ s.initReg.getLsbD j = true ∨ s.xorout.getLsbD j = true)

/-- CONFIG's two tests (R152) refuse exactly what R223 says. -/
theorem stagedLegal_iff_not_stagedIllegal (s : State) : stagedLegal s = true ↔ ¬ s.StagedIllegal := by
  simp only [stagedLegal_iff, Active.Legal, stagedActive, toNat_lt_two_pow_iff]
  constructor
  · rintro ⟨hlo, hhi, hpoly, hinit, hxorout⟩ (hzero | hwide | ⟨j, hj, hbit⟩)
    · omega
    · omega
    · simp [hpoly j hj, hinit j hj, hxorout j hj] at hbit
  · intro h
    simp only [State.StagedIllegal, not_or, not_exists, not_and, Bool.not_eq_true] at h
    obtain ⟨hzero, hwide, hbits⟩ := h
    exact ⟨by omega, by omega, fun j hj => (hbits j hj).1, fun j hj => (hbits j hj).2.1, fun j hj => (hbits j hj).2.2⟩

/-- Settles O26: CONFIG's tests are R223's condition, and no other command makes them. -/
theorem configRejectsIllegalParameters : Obligations.ConfigRejectsIllegalParameters := by
  refine ⟨fun s => ⟨fun hillegal => ?_, fun hlegal => ?_⟩, fun i s t hi ht => ?_⟩
  · have hstaged := mt (stagedLegal_iff_not_stagedIllegal s).mp (not_not_intro hillegal)
    exact exec_config_illegal (Bool.eq_false_iff.mpr hstaged)
  · exact ⟨_, exec_config_legal ((stagedLegal_iff_not_stagedIllegal s).mpr hlegal), rfl, rfl⟩
  · rcases exec_next_cases ht with ⟨e, hfail, rfl⟩ | ⟨-, a, -, rfl⟩
    · rcases hfail with ⟨rfl, -⟩ | ⟨rfl, -⟩ | ⟨-, hconfig, -⟩
      · rfl
      · rfl
      · exact absurd hconfig hi
    · rfl

/-! ### A failed command -/

/-- The core's turn on a word: it is illegal, or its command fails one check or passes them all, and never two of these. -/
theorem performPending_ends {s t : State} {c : Word} (hpending : s.pending = some c) (ht : performPending s = .next t) :
    ((∃ i, decode c = .ok i ∧ s.ChecksPass i) → t.errors = s.errors ∧ t.pending = none) ∧
      ((¬ ∃ i, decode c = .ok i ∧ s.ChecksPass i) → ∃ e, e ≠ .busy ∧ t = s.failed e) := by
  cases hdecode : decode c with
  | error d =>
    obtain rfl : t = s.failed .cmd := Host.Outcome.next.inj (ht.symm.trans (performPending_error hpending hdecode))
    exact ⟨fun ⟨_, hok, _⟩ => (nomatch hok), fun _ => ⟨.cmd, by decide, rfl⟩⟩
  | ok i =>
    rw [performPending_ok hpending hdecode] at ht
    rcases exec_next_cases ht with ⟨e, hfail, rfl⟩ | ⟨hpass, a, -, rfl⟩
    · refine ⟨fun ⟨i', hok, hpass⟩ => ?_, fun _ => ⟨e, hfail.ne_busy, rfl⟩⟩
      cases hok
      exact absurd hpass hfail.not_checksPass
    · exact ⟨fun _ => ⟨rfl, rfl⟩, fun hno => absurd ⟨i, rfl, hpass⟩ hno⟩

/-- Settles O27: taking the turn off the schedule changes nothing that the checks read. -/
theorem failedCommandChangesOnlyItsErrorBit : Obligations.FailedCommandChangesOnlyItsErrorBit := by
  intro s t rest c hturn hpending ht
  rw [step_coreTurn hturn] at ht
  exact performPending_ends (s := { s with schedule := rest }) hpending ht

/-! ### Writes while busy -/

/-- While a command is pending a write to an operand register is dropped with ERR_BUSY (R224, R264). -/
theorem hostWrite_dropped {s : State} (hbusy : s.pending.isSome = true) {r : Reg} (hr : r.droppedWhileBusy = true) (v : Word) :
    hostWrite 8 (s.params.baseAddr + r.offset) v s =
      { s with errors := { s.errors with busy := true }, response := .done } := by
  rw [hostWrite_reg, State.writeReg, State.busy, hbusy, hr]
  rfl

/-- A write to RESULT, STATUS or CAP does the same whether or not a command is pending (R264). -/
theorem hostWrite_not_dropped (s : State) {r : Reg} (hr : r.droppedWhileBusy = false) (v : Word) :
    hostWrite 8 (s.params.baseAddr + r.offset) v s = (s.storeReg v r).respond .done := by
  rw [hostWrite_reg, State.writeReg, hr, Bool.and_false]
  rfl

/-- Settles O34: the ten operand registers drop the write, and the other offsets do what they do while idle. -/
theorem writesWhileBusyAreDropped : Obligations.WritesWhileBusyAreDropped := by
  intro s v hbusy
  have hdropped := fun r hr => hostWrite_dropped hbusy (r := r) hr v
  refine ⟨?_, ?_, hostWrite_not_dropped s (r := .status) rfl v⟩
  · simp only [List.forall_mem_cons]
    exact ⟨hdropped .cfg rfl, hdropped .poly rfl, hdropped .init rfl, hdropped .xorout rfl, hdropped .state rfl,
      hdropped .opa rfl, hdropped .opb rfl, hdropped .data rfl, hdropped .count rfl, hdropped .cmd rfl, by simp⟩
  · rintro off (rfl | ⟨hlo, hhi, hal⟩)
    · exact hostWrite_not_dropped s (r := .result) rfl v
    · obtain rfl | hres : off = 0x60 ∨ 0x68 ≤ off := by omega
      · exact hostWrite_not_dropped s (r := .cap) rfl v
      · exact hostWrite_reserved s v hres hhi hal

/-! ### Undefined accesses -/

/-- Settles O32: an access of another size or alignment has no defined offset (R62). -/
theorem undefinedAccessGetsABusError : Obligations.UndefinedAccessGetsABusError := by
  intro s size off v h
  have hnone : definedOffset s.params.baseAddr size (s.params.baseAddr + off) = none := definedOffset_eq_none h
  rw [hostRead, hostWrite, hnone]
  exact ⟨rfl, rfl⟩

end Sys2Proof.Machine
end

section
/-! Bounded time (R270): each step either empties PENDING or takes one of the finitely many host accesses off the schedule. -/

namespace Sys2Proof.Machine

/-- The core's turn on a pending word always answers and empties PENDING, whether the word is illegal or a command (R85). -/
theorem performPending_retires {s : State} (hbusy : s.pending.isSome = true) :
    ∃ t, performPending s = .next t ∧ t.pending = none := by
  rcases performPending_cases s with ⟨hidle, -⟩ | ⟨c, d, -, -, hcore⟩ | ⟨c, i, -, -, hcore⟩
  · rw [hidle] at hbusy
    cases hbusy
  · exact ⟨_, hcore, rfl⟩
  · obtain ⟨t, hexec, hretired, -, -⟩ := exec_ends i s
    exact ⟨t, hcore.trans hexec, hretired⟩

/-- An event that finds a command pending empties PENDING, or it is a host access, after which the command is still pending
and the same events are to come. -/
theorem perform_busy (e : Event) {s : State} (hbusy : s.pending.isSome = true) :
    ∃ t, perform e s = .next t ∧ (t.pending = none ∨ (t.pending.isSome = true ∧ t.schedule = s.schedule)) := by
  cases haccess : e.isAccess with
  | true =>
    obtain ⟨errors, response, draws, hperform⟩ := perform_access_busy hbusy haccess
    exact ⟨_, hperform, .inr ⟨hbusy, rfl⟩⟩
  | false =>
    cases e with
    | read size addr => cases haccess
    | write size addr v => cases haccess
    | reset => exact ⟨s.applyReset, rfl, .inl rfl⟩
    | core =>
      obtain ⟨t, hcore, hretired⟩ := performPending_retires hbusy
      exact ⟨t, hcore, .inl hretired⟩

/-- Settles O8, by induction on the schedule: an event that leaves the command pending leaves a shorter schedule, and an empty
schedule is the core's turn. -/
theorem pendingCommandIsDoneInBoundedTime : Obligations.PendingCommandIsDoneInBoundedTime := by
  intro s hbusy
  induction hsched : s.schedule generalizing s with
  | nil =>
    obtain ⟨t, hcore, hretired⟩ := performPending_retires (s := { s with schedule := [] }) hbusy
    have hstep : step s = .next t := (step_coreTurn (.inr ⟨hsched, rfl⟩)).trans hcore
    exact ⟨1, t, Nat.le_refl 1, run_succ hstep 0, hretired⟩
  | cons e rest ih =>
    obtain ⟨t, hperform, hend⟩ := perform_busy e (s := { s with schedule := rest }) hbusy
    have hstep : step s = .next t := (step_cons hsched).trans hperform
    rcases hend with hretired | ⟨hstill, hrest⟩
    · exact ⟨1, t, Nat.le_add_left .., run_succ hstep 0, hretired⟩
    · obtain ⟨k, u, hk, hrun, hretired⟩ := ih t hstill hrest
      exact ⟨k + 1, u, Nat.succ_le_succ hk, (run_succ hstep k).trans hrun, hretired⟩

end Sys2Proof.Machine
end
